-- ==== Sys2Proof/Word.lean ====
section
/-!
DEFINITION. The word types of the CKSUM unit (spec 00_scope.md R4, R5).

Every value of the unit is an unsigned natural of a fixed width (R5), so each width of the parameter
table of R4 is one bit-vector type here.
-/

namespace Sys2Proof

/-- One byte of the frame buffer, or one byte of a byte-wide transport (R13, R49). -/
abbrev Byte := BitVec 8

/-- A summed word, a finished checksum: `WORD_W` = `SUM_W` = 16 bits (R4). -/
abbrev HWord := BitVec 16

/-- The accumulator, a frame-buffer address, a length, a 4-byte field or address: 32 bits (R4). -/
abbrev Word := BitVec 32

/-- A command word: `CMD_W` = 128 bits, bit 127 the most significant (R4, R40). -/
abbrev CmdWord := BitVec 128

/-- A response word: `RSP_W` = 40 bits (R4, R47). -/
abbrev RspWord := BitVec 40

end Sys2Proof
end

