-- ==== Sys2Proof/Syntax.lean ====
section
/-!
DEFINITION. The commands of the unit: one constructor per row of spec/opcode_table.json
(spec 30_encoding.md R41 to R43).

Each operand has exactly the bits the opcode table gives it, so no term of this type is ill formed:
what can be ill formed is a command word (Sys2Proof/WellFormed.lean).
-/

namespace Sys2Proof

/-- The ten commands with their operands, all unsigned and taken as they stand (R42). -/
inductive Instr where
  /-- `CLR`: start a new accumulation (R60). -/
  | clr
  /-- `ADD2 imm16`: ingest one 2-byte chunk (R61). -/
  | add2 (imm16 : HWord)
  /-- `ADD4 imm32`: ingest one 4-byte chunk (R62). -/
  | add4 (imm32 : Word)
  /-- `ADDS base, len`: ingest a slice of the frame buffer (R63). -/
  | adds (base len : Word)
  /-- `FIN`: fold, complement, return (R70). -/
  | fin
  /-- `STF addr`: finish and store the result into the frame (R71). -/
  | stf (addr : Word)
  /-- `RDA`: return the accumulator unfolded (R72). -/
  | rda
  /-- `UPD2 hc, old, new`: checksum after a 16-bit word changes (R80). -/
  | upd2 (hc old new : HWord)
  /-- `UPD4 hc, old, new`: checksum after a 32-bit field changes (R81). -/
  | upd4 (hc : HWord) (old new : Word)
  /-- `PHDR src, dst, proto, hlen, plen`: add the pseudo-header (R90). -/
  | phdr (src dst : Word) (proto : Byte) (hlen : HWord) (plen : Word)
  deriving DecidableEq, Repr

end Sys2Proof
end

