-- ==== Sys2Proof/WellFormed.lean ====
section
/-!
DEFINITION. Which 128-bit words are well formed (spec 30_encoding.md R40, R41, R44, R45).

Written from the format table of R41, one check per clause: the opcode is one of `0x01 .. 0x0A`, and
every bit the word's format lists as reserved is zero.
The decoder (Sys2Proof/Decode.lean) and the mask and match table (`opcodeTable` there) are written from
other parts of the spec, and statements tie the three together.
-/

namespace Sys2Proof.CmdWord

/-- `W[127:120]` (R40). -/
def opcode (w : CmdWord) : Byte := w.extractLsb' 120 8

/-- The opcode is one of the ten of R43. -/
def opcodeDefined (w : CmdWord) : Bool :=
  decide (0x01 ≤ (opcode w).toNat) && decide ((opcode w).toNat ≤ 0x0A)

/-- The bits from 0 up to `n - 1` are all zero. -/
def lowBitsZero (w : CmdWord) (n : Nat) : Bool := decide (w.toNat % 2 ^ n = 0)

/-- The reserved bits of the word's format are zero (the third column of R41, and for `UPD2` also the
upper halves of `old` and `new`).
An opcode outside the map has no format and so no reserved bits. -/
def reservedZero (w : CmdWord) : Bool :=
  match (opcode w).toNat with
  | 0x01 => lowBitsZero w 120
  | 0x02 => lowBitsZero w 104
  | 0x03 => lowBitsZero w 88
  | 0x04 => lowBitsZero w 56
  | 0x05 => lowBitsZero w 120
  | 0x06 => lowBitsZero w 88
  | 0x07 => lowBitsZero w 120
  | 0x08 => lowBitsZero w 40 && decide (w.extractLsb' 88 16 = 0) && decide (w.extractLsb' 56 16 = 0)
  | 0x09 => lowBitsZero w 40
  | _ => true

/-- A word that is a command (R45: every other word is illegal). -/
def wellFormed (w : CmdWord) : Bool := opcodeDefined w && reservedZero w

end Sys2Proof.CmdWord
end

