-- ==== Sys2Proof/Decode.lean ====
section
/-!
DEFINITION. Decoding and encoding of command words (spec 30_encoding.md R40 to R46, R49).

`decode` is total on all 128-bit words and rejects by name.
`encode` builds the word of a command from the same format table (R41).
`opcodeTable` transcribes the match and mask columns of R43.
`decodeBytes` and `commandBytes` are the byte-wide transport of R49.
-/

namespace Sys2Proof

/-- Why a word is no command.
Every one of these is the same illegal command to the unit (R45): the name only tells a reader why. -/
inductive DecodeError where
  /-- The opcode is `0x00` or `0x0B .. 0xFF` (R45). -/
  | unknownOpcode (op : Byte)
  /-- A reserved bit is set (R44). -/
  | reservedBitSet (op : Byte)
  /-- A byte-wide transport delivered other than 16 bytes, which is no command word at all (R40, R49). -/
  | wrongLength (n : Nat)
  deriving DecidableEq, Repr

/-! ### Byte order helpers -/

/-- The `n`-byte big-endian form of `v`: byte `i` is `v[8(n-i)-1 : 8(n-1-i)]` (R6, R49). -/
def beBytes : Nat → Nat → List Byte
  | 0, _ => []
  | n + 1, v => BitVec.ofNat 8 (v / 256 ^ n) :: beBytes n v

/-- The natural that a byte string spells, first byte most significant (R6). -/
def beNat : List Byte → Nat
  | [] => 0
  | b :: bs => b.toNat * 256 ^ bs.length + beNat bs

/-! ### Opcodes (R43) -/

/-- The opcode of each command. -/
def Instr.opcode : Instr → Byte
  | .clr => 0x01
  | .add2 _ => 0x02
  | .add4 _ => 0x03
  | .adds _ _ => 0x04
  | .fin => 0x05
  | .stf _ => 0x06
  | .rda => 0x07
  | .upd2 _ _ _ => 0x08
  | .upd4 _ _ _ => 0x09
  | .phdr _ _ _ _ _ => 0x0A

/-- The mnemonic of each command, in capitals (R50). -/
def Instr.mnemonic : Instr → String
  | .clr => "CLR"
  | .add2 _ => "ADD2"
  | .add4 _ => "ADD4"
  | .adds _ _ => "ADDS"
  | .fin => "FIN"
  | .stf _ => "STF"
  | .rda => "RDA"
  | .upd2 _ _ _ => "UPD2"
  | .upd4 _ _ _ => "UPD4"
  | .phdr _ _ _ _ _ => "PHDR"

/-! ### The decoder -/

/-- The bits `W[lo + n - 1 : lo]`, taken as they stand (R42). -/
def CmdWord.field (w : CmdWord) (lo n : Nat) : BitVec n := w.extractLsb' lo n

/-- Accept `i` when the reserved condition of its format holds, else reject by name (R44). -/
def acceptIf (reservedClear : Bool) (w : CmdWord) (i : Instr) : Except DecodeError Instr :=
  if reservedClear then .ok i else .error (.reservedBitSet w.opcode)

/-- The bits below `lo` are all zero. -/
def CmdWord.zeroBelow (w : CmdWord) (lo : Nat) : Bool := w.field 0 lo == 0

/-- Decode one command word: the fields of R41, the opcodes of R43, the reserved bits of R44. -/
def decode (w : CmdWord) : Except DecodeError Instr :=
  let op := w.opcode
  if op = 0x01 then acceptIf (w.zeroBelow 120) w .clr
  else if op = 0x02 then acceptIf (w.zeroBelow 104) w (.add2 (w.field 104 16))
  else if op = 0x03 then acceptIf (w.zeroBelow 88) w (.add4 (w.field 88 32))
  else if op = 0x04 then acceptIf (w.zeroBelow 56) w (.adds (w.field 88 32) (w.field 56 32))
  else if op = 0x05 then acceptIf (w.zeroBelow 120) w .fin
  else if op = 0x06 then acceptIf (w.zeroBelow 88) w (.stf (w.field 88 32))
  else if op = 0x07 then acceptIf (w.zeroBelow 120) w .rda
  else if op = 0x08 then
    acceptIf (w.zeroBelow 40 && w.field 88 16 == 0 && w.field 56 16 == 0) w
      (.upd2 (w.field 104 16) (w.field 72 16) (w.field 40 16))
  else if op = 0x09 then
    acceptIf (w.zeroBelow 40) w (.upd4 (w.field 104 16) (w.field 72 32) (w.field 40 32))
  else if op = 0x0A then
    .ok (.phdr (w.field 88 32) (w.field 56 32) (w.field 48 8) (w.field 32 16) (w.field 0 32))
  else .error (.unknownOpcode op)

/-- Decode a command carried over a byte-wide path: 16 bytes, the most significant first (R49). -/
def decodeBytes (bs : List Byte) : Except DecodeError Instr :=
  if bs.length = 16 then decode (BitVec.ofNat 128 (beNat bs)) else .error (.wrongLength bs.length)

/-- The decoder, on a word numbered as spec/opcode_table.json numbers it: `nbits` bits of `w`, and zero
above them.
A command is one 128-bit word, so the table's numbering is the word's own (R40). -/
def decodeTableWord (nbits w : Nat) : Option Instr :=
  match decode ((BitVec.ofNat nbits w).setWidth 128) with
  | .ok i => some i
  | .error _ => none

/-! ### The encoder -/

/-- The value `v` standing at bits `lo + n - 1` down to `lo` of a word that is zero elsewhere. -/
def placeField {n : Nat} (v : BitVec n) (lo : Nat) : CmdWord := v.setWidth 128 <<< lo

/-- The operand bits of a command, at the places of R41, zero in every reserved bit. -/
def Instr.operandBits : Instr → CmdWord
  | .clr => 0
  | .add2 imm16 => placeField imm16 104
  | .add4 imm32 => placeField imm32 88
  | .adds base len => placeField base 88 ||| placeField len 56
  | .fin => 0
  | .stf addr => placeField addr 88
  | .rda => 0
  | .upd2 hc old new => placeField hc 104 ||| placeField old 72 ||| placeField new 40
  | .upd4 hc old new => placeField hc 104 ||| placeField old 72 ||| placeField new 40
  | .phdr src dst proto hlen plen =>
      placeField src 88 ||| placeField dst 56 ||| placeField proto 48 ||| placeField hlen 32
        ||| placeField plen 0

/-- The word of a command: its opcode in `W[127:120]` over its operand bits (R40, R41). -/
def encode (i : Instr) : CmdWord := placeField i.opcode 120 ||| i.operandBits

/-- The bytes of a command word on a byte-wide path: byte `k` is `W[127-8k : 120-8k]` (R49). -/
def commandBytes (w : CmdWord) : List Byte := beBytes 16 w.toNat

/-! ### The opcode table (R43) -/

/-- One row of the match and mask table: a word selects it exactly when `W AND mask = bits`. -/
structure OpRow where
  mnemonic : String
  bits : CmdWord
  mask : CmdWord
  deriving DecidableEq, Repr

/-- A word selects a row exactly when `W AND mask = match` (R43). -/
def OpRow.selects (r : OpRow) (w : CmdWord) : Bool := w &&& r.mask == r.bits

/-- The ten rows of R43, match and mask as the spec prints them. -/
def opcodeTable : List OpRow :=
  [ ⟨"CLR",  0x01000000000000000000000000000000#128, 0xFFFFFFFFFFFFFFFFFFFFFFFFFFFFFFFF#128⟩,
    ⟨"ADD2", 0x02000000000000000000000000000000#128, 0xFF0000FFFFFFFFFFFFFFFFFFFFFFFFFF#128⟩,
    ⟨"ADD4", 0x03000000000000000000000000000000#128, 0xFF00000000FFFFFFFFFFFFFFFFFFFFFF#128⟩,
    ⟨"ADDS", 0x04000000000000000000000000000000#128, 0xFF0000000000000000FFFFFFFFFFFFFF#128⟩,
    ⟨"FIN",  0x05000000000000000000000000000000#128, 0xFFFFFFFFFFFFFFFFFFFFFFFFFFFFFFFF#128⟩,
    ⟨"STF",  0x06000000000000000000000000000000#128, 0xFF00000000FFFFFFFFFFFFFFFFFFFFFF#128⟩,
    ⟨"RDA",  0x07000000000000000000000000000000#128, 0xFFFFFFFFFFFFFFFFFFFFFFFFFFFFFFFF#128⟩,
    ⟨"UPD2", 0x08000000000000000000000000000000#128, 0xFF0000FFFF0000FFFF0000FFFFFFFFFF#128⟩,
    ⟨"UPD4", 0x09000000000000000000000000000000#128, 0xFF00000000000000000000FFFFFFFFFF#128⟩,
    ⟨"PHDR", 0x0A000000000000000000000000000000#128, 0xFF000000000000000000000000000000#128⟩ ]

/-- The word selects some row, so it is a command (R45). -/
def matchesTable (w : CmdWord) : Bool := opcodeTable.any (·.selects w)

end Sys2Proof
end

