-- ==== Sys2Proof/Config.lean ====
section
/-!
DEFINITION. The parameters of the unit that are numbers and not widths (spec 00_scope.md R4).

The one OPEN parameter, `FB_LEN`, is fixed by the host for each launch (R13, R17), so it is a field of
`Machine.State` and no constant of this file.
The spec leaves no value free: "every command on every operand either responds OK with a defined value
or responds with one defined error" (93_implementation_defined.md section 2), so no opaque constant
stands here.
-/

namespace Sys2Proof.Config

/-- The largest length a frame buffer may have: `0 <= FB_LEN <= 2^32 - 1` (R4). -/
abbrev fbLenMax : Nat := 2 ^ 32 - 1

/-- `LEN_MAX`, the largest legal transport length `hlen + plen` (R4, R91). -/
abbrev lenMax : Nat := 65535

end Sys2Proof.Config
end

