-- ==== Sys2Proof/Machine/State.lean ====
section
/-!
DEFINITION. The state of the machine, what the host can send it, what it answers, and how a step stops
(spec 10_state.md, 30_encoding.md R47, R48, 60_exceptions.md, 70_reset_and_hazards.md).

The unit itself has two pieces of state, `ACC` and `FB` (10_state.md, first paragraph).
The launch adds `FB_LEN`, the commands and writes of the host and the responses (R17): the model holds
them as data beside the unit's state, so that one deterministic step function runs a whole launch.
-/

namespace Sys2Proof.Machine

/-- A frame buffer's contents: (address, byte) pairs with addresses strictly rising and no byte zero.
An address that is not listed reads as `0x00` (log entry 2). -/
abbrev Memory := List Host.Cell

/-- The status of a response (R48).
No other code is ever produced. -/
inductive Status where
  /-- `OK`, `0x00`: the command completed. -/
  | ok
  /-- `E_ILLEGAL`, `0x01`: the word is no command. -/
  | eIllegal
  /-- `E_BOUNDS`, `0x02`: the window is not inside `FB`. -/
  | eBounds
  /-- `E_TOOLARGE`, `0x03`: `hlen + plen > 65535`. -/
  | eTooLarge
  deriving DecidableEq, Repr

/-- The response every command produces: a status and a 32-bit value (R47). -/
structure Response where
  status : Status
  value : Word
  deriving DecidableEq, Repr

/-- The three synchronous exceptions of the unit (R120).
Each is taken as an error response, which is a next state and no fault of the model. -/
inductive CmdError where
  /-- The word matches no row of the opcode table (R124). -/
  | illegalCommand
  /-- The window of `ADDS` or `STF` is not inside `FB` (R125). -/
  | boundsError
  /-- `hlen + plen > 65535` in `PHDR` (R126). -/
  | valueTooLarge
  deriving DecidableEq, Repr

/-- One move of the host between commands (R143). -/
inductive HostMove where
  /-- Load the whole frame: its bytes fix `FB` and `FB_LEN` (R141, and `.fb` of R50). -/
  | load (bytes : List Byte)
  /-- Write the listed bytes into `FB` at `addr` (R31, R143, and `.poke` of R50). -/
  | poke (addr : Nat) (bytes : List Byte)
  /-- Issue one 128-bit word and wait for its response (R12, R143). -/
  | command (w : CmdWord)
  /-- Issue the words one after another and stop at the first response that is not `OK`: how the host
  runs the expansion of a pseudo-instruction (R51, R107). -/
  | sequence (ws : List CmdWord)
  /-- Reset the unit (R140, R143). -/
  | reset
  deriving DecidableEq, Repr

/-- Why the machine stops with a fault. -/
inductive Fault where
  /-- Raised by a host write (`HostMove.poke`) to an address that is not in `0 .. FB_LEN - 1`, which the
  spec says does not exist (R20). Safe: the spec gives the host no such write. -/
  | hostWriteOutsideFrame
  deriving DecidableEq, Repr

/-- Why the machine refuses to go on. -/
inductive Refusal where
  /-- Raised by `exec` for an instruction that has no meaning yet. Safe. No arm of `exec` uses it. -/
  | notModelled (mnemonic : String)
  /-- Raised by `ADDS`, `STF` and a host write before the host has loaded a frame: "the content of FB is
  unspecified and a model refuses such a launch rather than draw bytes" (R141). Safe. -/
  | frameNotLoaded
  /-- Raised by a load of more than `2^32 - 1` bytes, which is no value of `FB_LEN` (R4). Safe. -/
  | frameTooLong
  deriving DecidableEq, Repr

/-- The machine: the unit, the frame buffer it shares with the host, and the launch. -/
structure State where
  /-- `ACC`, the one register of the unit (R10). -/
  acc : Word
  /-- The contents of `FB`, addresses `0 .. fbLen - 1` (R13). -/
  fb : Memory
  /-- `FB_LEN`, fixed by the load of the frame (R4, R13, R17). -/
  fbLen : Nat
  /-- The host has loaded a frame, so that every byte of `FB` is defined (R13, R141). -/
  loaded : Bool
  /-- The moves the host has still to make, the next one first (R12, R17). -/
  inputs : List HostMove
  /-- The responses produced so far, the newest first (R17, R47, R142). -/
  responses : List Response
  deriving DecidableEq, Repr

/-- The machine right after reset, before the host has done anything: `ACC = 0` (R18, R140), no frame
loaded (R18: `FB` unspecified), nothing pending and nothing answered (R140: "the unit waits for the
first command"). -/
def State.reset : State :=
  { acc := 0
    fb := []
    fbLen := 0
    loaded := false
    inputs := []
    responses := [] }

end Sys2Proof.Machine
end

