-- ==== Sys2Proof/Machine/Flags.lean ====
section
/-!
DEFINITION. The conditions of the unit.

The unit has no flags, condition codes or predicates (spec 10_state.md R14), so this file holds every
condition its arithmetic and its checks compute (40_accumulate.md R68): the carry of the end-around add
and the three unsigned comparisons, each the whole of an error check.
All sums are exact (R5, R68).
-/

namespace Sys2Proof.Machine

/-- The 32-bit sum carries out of bit 31: `a + b >= 2^32` (R7). -/
def carryOut (a b : Word) : Bool := decide (2 ^ 32 ≤ a.toNat + b.toNat)

/-- The window `(base, len)` is admitted: `base + len <= FB_LEN`, the sum exact (R24). -/
def windowAdmitted (fbLen base len : Nat) : Bool := decide (base + len ≤ fbLen)

/-- The transport length is too large: `hlen + plen > 65535`, the sum exact (R91). -/
def lengthTooLarge (hlen plen : Nat) : Bool := decide (Config.lenMax < hlen + plen)

end Sys2Proof.Machine
end

