-- ==== Sys2Proof/Machine/Operands.lean ====
section
/-!
DEFINITION. Operand assembly: how bytes and 32-bit operands become 16-bit words
(spec 00_scope.md R9, 30_encoding.md R42, 43_pseudo_header.md R90).

No operand is sign extended, scaled or split (R42), so these are all the forms there are: a chunk or an
address by value, and the six words of a pseudo-header.
A slice by reference is in Sys2Proof/Machine/Ops.lean (`windowWords`).
-/

namespace Sys2Proof.Machine

/-- `be16(b0, b1) = b0 * 256 + b1` (R9). -/
def be16 (b0 b1 : Byte) : HWord := BitVec.ofNat 16 (b0.toNat * 256 + b1.toNat)

/-- The 32-bit operand that four bytes spell: `b0*2^24 + b1*2^16 + b2*2^8 + b3` (R9, R42; also the dotted
form of R50). -/
def be32 (b0 b1 b2 b3 : Byte) : Word :=
  BitVec.ofNat 32 (b0.toNat * 2 ^ 24 + b1.toNat * 2 ^ 16 + b2.toNat * 2 ^ 8 + b3.toNat)

/-- `v[31:16]`, the word at the lower address (R62, R81). -/
def hiHalf (v : Word) : HWord := v.extractLsb' 16 16

/-- `v[15:0]`, the word at the higher address (R62, R81). -/
def loHalf (v : Word) : HWord := v.extractLsb' 0 16

/-- The two words of a 4-byte chunk or address (R9, R62). -/
def halves (v : Word) : List HWord := [hiHalf v, loHalf v]

/-- The word `0x00 : proto`, "zero byte + protocol-number byte" (R90). -/
def protoWord (proto : Byte) : HWord := be16 0 proto

/-- The six words of the pseudo-header, in the order of R90.
The length word is `L[15:0]` of the exact sum `L = hlen + plen`. -/
def phdrWords (src dst : Word) (proto : Byte) (hlen : HWord) (plen : Word) : List HWord :=
  halves src ++ halves dst ++ [protoWord proto, BitVec.ofNat 16 (hlen.toNat + plen.toNat)]

end Sys2Proof.Machine
end

