-- ==== Sys2Proof/Machine/Arith.lean ====
section
/-!
DEFINITION. The arithmetic of the unit: the end-around add, the fold and the finish, and the sums of the
incremental update (spec 00_scope.md R7, R8, 42_incremental_update.md R80, R81).

Operands go to naturals, the sum is exact, and the result is narrowed at the end (R5, R68).
-/

namespace Sys2Proof.Machine

/-- `oc_add32`: add, and add the carry out of bit 31 back at bit 0 (R7). -/
def ocAdd32 (a b : Word) : Word :=
  BitVec.ofNat 32
    (if carryOut a b then a.toNat + b.toNat - 2 ^ 32 + 1 else a.toNat + b.toNat)

/-- One accumulate step on a value: `oc_add32(acc, zext_32(w))` (R7, `acc_add`). -/
def addWord (acc : Word) (w : HWord) : Word := ocAdd32 acc (w.setWidth 32)

/-- Add the words of a list in order. -/
def sumWords (acc : Word) (ws : List HWord) : Word := ws.foldl addWord acc

/-- `fold16`: `t = x[15:0] + x[31:16]`, then `t[15:0] + t[16]` (R8). -/
def fold16 (x : Word) : HWord :=
  let t := x.toNat % 2 ^ 16 + x.toNat / 2 ^ 16
  BitVec.ofNat 16 (t % 2 ^ 16 + t / 2 ^ 16)

/-- `cksum16(x) = ~_16 fold16(x)` (R8). -/
def cksum16 (x : Word) : HWord := ~~~ fold16 x

/-- The unfolded sum `t` of `UPD2`, at most `0x2FFFD` (R80). -/
def upd2Sum (hc old new : HWord) : Word :=
  BitVec.ofNat 32 ((~~~ hc).toNat + (~~~ old).toNat + new.toNat)

/-- The unfolded sum `t` of `UPD4`, at most `0x4FFFB` (R81). -/
def upd4Sum (hc : HWord) (old new : Word) : Word :=
  BitVec.ofNat 32
    ((~~~ hc).toNat + (~~~ hiHalf old).toNat + (~~~ loHalf old).toNat
      + (hiHalf new).toNat + (loHalf new).toNat)

end Sys2Proof.Machine
end

