-- ==== Sys2Proof/Machine/Ops.lean ====
section
/-!
DEFINITION. The named operations over the frame buffer, the accumulator and the response
(spec 00_scope.md R6, 20_memory.md, 30_encoding.md R47 to R49, 60_exceptions.md R121, R122).

`State.raise` is taking an exception: the one shared operation every error of the unit goes through.
There is no return from an exception (R123, R131): after an error response the unit runs the next
command as after an `OK`.
-/

namespace Sys2Proof.Machine

/-! ### The frame buffer as bytes -/

/-- `FB[a]` (R6). -/
def Memory.read : Memory → Nat → Byte
  | [], _ => 0
  | (x, b) :: m, a => if x = a then b else Memory.read m a

/-- `FB[a] <- v` (R6), keeping the canonical form: writing zero removes the entry. -/
def Memory.write : Memory → Nat → Byte → Memory
  | [], a, v => if v = 0 then [] else [(a, v)]
  | (x, b) :: m, a, v =>
    if a < x then (if v = 0 then (x, b) :: m else (a, v) :: (x, b) :: m)
    else if a = x then (if v = 0 then m else (a, v) :: m)
    else (x, b) :: Memory.write m a v

/-- Every entry from here on stands at `lo` or above, strictly rising, and is not zero. -/
def Memory.wfFrom : Nat → Memory → Bool
  | _, [] => true
  | lo, (x, b) :: m => decide (lo ≤ x) && decide (b ≠ 0) && Memory.wfFrom (x + 1) m

/-- The canonical form: addresses strictly rising, no byte zero. -/
def Memory.wf (m : Memory) : Bool := Memory.wfFrom 0 m

/-- Write consecutive bytes, the first at `a`. -/
def Memory.writeBytes : Memory → Nat → List Byte → Memory
  | m, _, [] => m
  | m, a, b :: bs => Memory.writeBytes (Memory.write m a b) (a + 1) bs

/-- The memory that holds the bytes from address `a` on and nothing else. -/
def Memory.ofBytes : Nat → List Byte → Memory
  | _, [] => []
  | a, b :: bs => if b = 0 then Memory.ofBytes (a + 1) bs else (a, b) :: Memory.ofBytes (a + 1) bs

/-- `MemRead(addr, n)`: `n` bytes from `addr` as a big-endian natural (R6, R22). -/
def Memory.memRead : Memory → Nat → Nat → Nat
  | _, _, 0 => 0
  | m, a, n + 1 => (Memory.read m a).toNat * 256 ^ n + Memory.memRead m (a + 1) n

/-- `MemWrite(addr, n, v)`: store the `n`-byte big-endian form of `v` (R6, R22). -/
def Memory.memWrite (m : Memory) (a n v : Nat) : Memory := Memory.writeBytes m a (beBytes n v)

/-- The bytes of the window `(base, len)`. -/
def Memory.windowBytes : Memory → Nat → Nat → List Byte
  | _, _, 0 => []
  | m, a, n + 1 => Memory.read m a :: Memory.windowBytes m (a + 1) n

/-- The full words of a window of `2 * n` bytes, paired from its first byte (R23, R63). -/
def Memory.fullWords : Memory → Nat → Nat → List HWord
  | _, _, 0 => []
  | m, a, n + 1 => BitVec.ofNat 16 (Memory.memRead m a 2) :: Memory.fullWords m (a + 2) n

/-- The lone last byte of an odd window, padded on its own (R25, R63, R64). -/
def Memory.tailWord (m : Memory) (base len : Nat) : List HWord :=
  if len % 2 = 1 then [BitVec.ofNat 16 (Memory.memRead m (base + len - 1) 1 * 256)] else []

/-- The words `ADDS base, len` adds, in the order of its loop (R63). -/
def Memory.windowWords (m : Memory) (base len : Nat) : List HWord :=
  Memory.fullWords m base (len / 2) ++ Memory.tailWord m base len

/-! ### Responses -/

/-- The 8-bit code of a status (R48). -/
def Status.code : Status → Byte
  | .ok => 0x00
  | .eIllegal => 0x01
  | .eBounds => 0x02
  | .eTooLarge => 0x03

/-- The status an exception is reported with (R120). -/
def CmdError.status : CmdError → Status
  | .illegalCommand => .eIllegal
  | .boundsError => .eBounds
  | .valueTooLarge => .eTooLarge

/-- The 40-bit response word: `status = Q[39:32]`, `value = Q[31:0]` (R47). -/
def Response.word (q : Response) : RspWord :=
  BitVec.ofNat 40 (q.status.code.toNat * 2 ^ 32 + q.value.toNat)

/-- The bytes of a response on a byte-wide path: byte `k` is `Q[39-8k : 32-8k]` (R49). -/
def responseBytes (q : Response) : List Byte := beBytes 5 q.word.toNat

/-- A response as R47 allows it: an error response has value zero. -/
def Response.wf (q : Response) : Bool := decide (q.status = .ok) || decide (q.value = 0)

/-- The responses of a launch in the order they were produced (R142). -/
def State.responseSequence (s : State) : List Response := s.responses.reverse

/-- The status of the newest response is `OK`. -/
def State.lastOk (s : State) : Bool :=
  match s.responses with
  | [] => false
  | q :: _ => decide (q.status = .ok)

/-- `respond(v)`: end the command with status `OK` and value `v` (R6, R47). -/
def State.respond (v : Word) (s : State) : State :=
  { s with responses := ⟨.ok, v⟩ :: s.responses }

/-- `raise e`: end the command with the status of `e` and value zero, and write no state (R6, R121, R122).
Nothing is saved, no vector is consulted and no mode changes (R121). -/
def State.raise (e : CmdError) (s : State) : State :=
  { s with responses := ⟨e.status, 0⟩ :: s.responses }

/-! ### The accumulator -/

/-- `ACC <- v` (R6). -/
def State.setAcc (v : Word) (s : State) : State := { s with acc := v }

/-- `acc_add` of each word of a piece, in order (R7). -/
def State.accAdd (ws : List HWord) (s : State) : State := s.setAcc (sumWords s.acc ws)

/-- The finished checksum of `ACC`, zero-extended into the value field (R47, R70). -/
def State.finished (s : State) : HWord := cksum16 s.acc

/-! ### Accesses to the frame buffer -/

/-- The guard of the two commands that reach `FB`: a launch that has not loaded its frame is refused
(R141), a window that is not admitted answers `E_BOUNDS` and changes nothing (R24, R122), and otherwise
`body` is the command's effect. -/
def withWindow (base len : Nat) (body : State → State) (s : State) :
    Host.Outcome State Fault Refusal :=
  if s.loaded then
    if windowAdmitted s.fbLen base len then .next (body s) else .next (s.raise .boundsError)
  else .refused .frameNotLoaded

/-- `FB` with the `n`-byte big-endian form of `v` at `addr` (R6). -/
def State.store (addr n v : Nat) (s : State) : State :=
  { s with fb := Memory.memWrite s.fb addr n v }

/-- The host's load of a frame (R141 step 1): the bytes are `FB` and their count is `FB_LEN`. -/
def State.loadFrame (bytes : List Byte) (s : State) : State :=
  { s with fb := Memory.ofBytes 0 bytes, fbLen := bytes.length, loaded := true }

/-- The host's write of bytes between commands (R31, R143). -/
def State.pokeBytes (addr : Nat) (bytes : List Byte) (s : State) : State :=
  { s with fb := Memory.writeBytes s.fb addr bytes }

end Sys2Proof.Machine
end

