-- ==== Sys2Proof/Machine/Accumulate.lean ====
section
/-!
DEFINITION. The accumulate commands CLR, ADD2, ADD4, ADDS (spec 40_accumulate.md).
-/

namespace Sys2Proof.Machine

/-- `CLR`: `ACC <- 0; respond(0)` (R60). -/
def execClr (s : State) : Host.Outcome State Fault Refusal :=
  .next ((s.setAcc 0).respond 0)

/-- `ADD2 imm16`: `acc_add(imm16); respond(0)` (R61). -/
def execAdd2 (imm16 : HWord) (s : State) : Host.Outcome State Fault Refusal :=
  .next ((s.accAdd [imm16]).respond 0)

/-- `ADD4 imm32`: `acc_add(imm32[31:16]); acc_add(imm32[15:0]); respond(0)` (R62). -/
def execAdd4 (imm32 : Word) (s : State) : Host.Outcome State Fault Refusal :=
  .next ((s.accAdd (halves imm32)).respond 0)

/-- `ADDS base, len`: add the words of the window, or answer `E_BOUNDS` (R63). -/
def execAdds (base len : Word) (s : State) : Host.Outcome State Fault Refusal :=
  withWindow base.toNat len.toNat
    (fun t => (t.accAdd (Memory.windowWords t.fb base.toNat len.toNat)).respond 0) s

end Sys2Proof.Machine
end

