-- ==== Sys2Proof/Machine/Finalize.lean ====
section
/-!
DEFINITION. The finish commands FIN, STF, RDA (spec 41_finalize.md).
-/

namespace Sys2Proof.Machine

/-- `FIN`: `respond(cksum16(ACC))` (R70).
No substitution of `0xFFFF` for `0x0000` is made. -/
def execFin (s : State) : Host.Outcome State Fault Refusal :=
  .next (s.respond (s.finished.setWidth 32))

/-- `STF addr`: as `FIN`, and store the result big-endian at `addr`, `addr + 1`, or answer `E_BOUNDS` and
write nothing (R71). -/
def execStf (addr : Word) (s : State) : Host.Outcome State Fault Refusal :=
  withWindow addr.toNat 2
    (fun t => (t.store addr.toNat 2 t.finished.toNat).respond (t.finished.setWidth 32)) s

/-- `RDA`: `respond(ACC)` (R72). -/
def execRda (s : State) : Host.Outcome State Fault Refusal :=
  .next (s.respond s.acc)

end Sys2Proof.Machine
end

