-- ==== Sys2Proof/Machine/IncrementalUpdate.lean ====
section
/-!
DEFINITION. The incremental-update commands UPD2, UPD4 (spec 42_incremental_update.md).

Both are pure functions of their operands: neither reads or writes `ACC` or `FB` (R80, R81, R84), and no
precondition is checked (R83).
-/

namespace Sys2Proof.Machine

/-- `UPD2 hc, old, new`: `respond(~_16 fold16(~hc + ~old + new))` (R80). -/
def execUpd2 (hc old new : HWord) (s : State) : Host.Outcome State Fault Refusal :=
  .next (s.respond ((cksum16 (upd2Sum hc old new)).setWidth 32))

/-- `UPD4 hc, old, new`: the same over the two words of each 32-bit field (R81). -/
def execUpd4 (hc : HWord) (old new : Word) (s : State) : Host.Outcome State Fault Refusal :=
  .next (s.respond ((cksum16 (upd4Sum hc old new)).setWidth 32))

end Sys2Proof.Machine
end

