-- ==== Sys2Proof/Machine/PseudoHeader.lean ====
section
/-!
DEFINITION. The pseudo-header command PHDR (spec 43_pseudo_header.md).
-/

namespace Sys2Proof.Machine

/-- `PHDR src, dst, proto, hlen, plen`: answer `E_TOOLARGE` and add nothing when `hlen + plen > 65535`,
else add the six words of the pseudo-header (R90, R91).
`proto` and `hlen` are used as given (R92). -/
def execPhdr (src dst : Word) (proto : Byte) (hlen : HWord) (plen : Word) (s : State) :
    Host.Outcome State Fault Refusal :=
  if lengthTooLarge hlen.toNat plen.toNat then .next (s.raise .valueTooLarge)
  else .next ((s.accAdd (phdrWords src dst proto hlen plen)).respond 0)

end Sys2Proof.Machine
end

