-- ==== Sys2Proof/Machine/Dispatch.lean ====
section
/-!
DEFINITION. One arm per command, each a direct call of its meaning.
-/

namespace Sys2Proof.Machine

-- Executes one decoded command to completion and produces its one response (spec 10_state.md R12).
def exec (i : Instr) (s : State) : Host.Outcome State Fault Refusal :=
  match i with
  -- 40_accumulate.md
  | .clr => Sys2Proof.Machine.execClr s
  | .add2 imm16 => Sys2Proof.Machine.execAdd2 imm16 s
  | .add4 imm32 => Sys2Proof.Machine.execAdd4 imm32 s
  | .adds base len => Sys2Proof.Machine.execAdds base len s
  -- 41_finalize.md
  | .fin => Sys2Proof.Machine.execFin s
  | .stf addr => Sys2Proof.Machine.execStf addr s
  | .rda => Sys2Proof.Machine.execRda s
  -- 42_incremental_update.md
  | .upd2 hc old new => Sys2Proof.Machine.execUpd2 hc old new s
  | .upd4 hc old new => Sys2Proof.Machine.execUpd4 hc old new s
  -- 43_pseudo_header.md
  | .phdr src dst proto hlen plen => Sys2Proof.Machine.execPhdr src dst proto hlen plen s

end Sys2Proof.Machine
end

