-- ==== Sys2Proof/Machine/Port.lean ====
section
/-!
DEFINITION. The host's side of a step: issuing a word to the command port, and the other moves the host
may make between commands (spec 10_state.md R12, 60_exceptions.md R124, R127, 70_reset_and_hazards.md
R140 to R143, 44_compositions.md R107).
-/

namespace Sys2Proof.Machine

/-- Issue one word: decode comes first (R127), an illegal word answers `E_ILLEGAL` and changes nothing
(R45, R124), and a command runs to completion (R12). -/
def issue (w : CmdWord) (s : State) : Host.Outcome State Fault Refusal :=
  match decode w with
  | .ok i => exec i s
  | .error _ => .next (s.raise .illegalCommand)

/-- What is still to be issued of a sequence, put back before the host's other moves. -/
def pushSequence (ws : List CmdWord) (inputs : List HostMove) : List HostMove :=
  match ws with
  | [] => inputs
  | _ :: _ => .sequence ws :: inputs

/-- Issue the first word of a sequence, and keep the rest for the next steps only when its response is
`OK`: the host stops a pseudo-instruction at its first error (R51, R107). -/
def issueSequence (ws : List CmdWord) (s : State) : Host.Outcome State Fault Refusal :=
  match ws with
  | [] => .next s
  | w :: rest =>
    match issue w s with
    | .next t => .next (if t.lastOk then { t with inputs := pushSequence rest t.inputs } else t)
    | .fault e => .fault e
    | .refused r => .refused r

/-- The host loads a frame, which begins a launch (R141, R143).
`ACC` is whatever the previous use left (R19), and `FB_LEN` is a natural up to `2^32 - 1` (R4). -/
def loadMove (bytes : List Byte) (s : State) : Host.Outcome State Fault Refusal :=
  if bytes.length ≤ Config.fbLenMax then .next (s.loadFrame bytes) else .refused .frameTooLong

/-- The host writes bytes of `FB` between commands (R31, R143), inside `FB` only (R20). -/
def pokeMove (addr : Nat) (bytes : List Byte) (s : State) : Host.Outcome State Fault Refusal :=
  if s.loaded then
    if windowAdmitted s.fbLen addr bytes.length then .next (s.pokeBytes addr bytes)
    else .fault .hostWriteOutsideFrame
  else .refused .frameNotLoaded

/-- Reset sets `ACC <- 0` and does nothing else (R140). -/
def resetMove (s : State) : Host.Outcome State Fault Refusal := .next (s.setAcc 0)

/-- One move of the host, on a state from which the move has been taken. -/
def takeMove (m : HostMove) (s : State) : Host.Outcome State Fault Refusal :=
  match m with
  | .load bytes => loadMove bytes s
  | .poke addr bytes => pokeMove addr bytes s
  | .command w => issue w s
  | .sequence ws => issueSequence ws s
  | .reset => resetMove s

/-- What a host read of `FB[a]` between commands returns (R143): the byte, or nothing where no frame is
loaded or the address does not exist.
A read changes no state (R26), so it is an observation and no move. -/
def State.hostRead (s : State) (a : Nat) : Option Byte :=
  if s.loaded && decide (a < s.fbLen) then some (Memory.read s.fb a) else none

/-- A launch's frame is resident before its commands run (R141): a state in which no frame has been
loaded takes the empty frame. -/
def State.ensureFrame (s : State) : State := if s.loaded then s else s.loadFrame []

/-- The host's next move is to issue `w`. -/
def State.placeCommand (w : CmdWord) (s : State) : State :=
  { s.ensureFrame with inputs := .command w :: s.inputs }

end Sys2Proof.Machine
end

