-- ==== Sys2Proof/Machine/Step.lean ====
section
/-!
DEFINITION. One step: the host's next move, carried out to completion (spec 10_state.md R12).
-/

namespace Sys2Proof.Machine

/-- One step of the machine.
With a move pending, the move is taken and carried out.
With none, the unit is idle and keeps its state (60_exceptions.md R132). -/
def step (s : State) : Host.Outcome State Fault Refusal :=
  match s.inputs with
  | [] => .next s
  | m :: rest => takeMove m { s with inputs := rest }

/-- `s` with the command word `w` (numbered as the opcode table numbers it, zero above `nbits`) as the
host's next move, so that the very next step runs it (log entry 5). -/
def State.withFetchWord (s : State) (nbits w : Nat) : State :=
  s.placeCommand ((BitVec.ofNat nbits w).setWidth 128)

end Sys2Proof.Machine
end

