-- ==== Sys2Proof/Machine/Compositions.lean ====
section
/-!
DEFINITION. The pseudo-instructions IPV4SUM, IPV4UPD, IPV4CHK, TCPSUM: their expansions and how the host
runs them (spec 30_encoding.md R51, 44_compositions.md R100 to R108).

A pseudo-instruction has no encoding of its own and means exactly its expansion.
-/

namespace Sys2Proof.Machine

/-- Why the assembler refuses a line. -/
inductive AsmError where
  /-- `hsize` is below 12 (`IPV4SUM`, `IPV4UPD`) or below 18 (`TCPSUM`): `hsize - 12` or `hsize - 18` is no
  natural (R101, R102, R104). -/
  | headerTooShort
  /-- An operand written in the line does not fit its field (R41). -/
  | operandTooWide
  /-- The mnemonic is none of R50 and R51. -/
  | unknownMnemonic
  /-- An operand is no number of R50. -/
  | badOperand
  /-- The line does not have the operands of its mnemonic. -/
  | wrongOperandCount
  deriving DecidableEq, Repr

/-- The four pseudo-instructions with their operands (R51). -/
inductive Pseudo where
  | ipv4sum (base hsize : Word)
  | ipv4upd (base hsize : Word)
  | ipv4chk (base hsize : Word)
  | tcpsum (src dst base hsize pbase plen : Word)
  deriving DecidableEq, Repr

/-! ### Commands whose operand may need more bits than its field

`base + 12` and `base + 18` are exact (R24, R101 to R104), so near the top of the address space they need
33 bits, and a `TCPSUM` may be given an `hsize` of more than 16 bits.
The rules give each such command one outcome, the error of its check, because no `FB` is that long
(R4) or no segment is (R91).
DESIGN CHOICE (log entry 17): the word issued in its place is the same command with these operands at
their largest value, whose check fails in the same way; an error response tells no operand and changes
nothing (R121, R122). -/

/-- `ADDS base, len` for an exact `base`. -/
def addsAt (base : Nat) (len : Word) : Instr :=
  if base < 2 ^ 32 then .adds (BitVec.ofNat 32 base) len else .adds 0xFFFFFFFF 0xFFFFFFFF

/-- `STF addr` for an exact `addr`. -/
def stfAt (addr : Nat) : Instr :=
  if addr < 2 ^ 32 then .stf (BitVec.ofNat 32 addr) else .stf 0xFFFFFFFF

/-- `PHDR src, dst, 6, hsize, plen` for a header size of any width. -/
def tcpHeader (src dst : Word) (hsize : Nat) (plen : Word) : Instr :=
  if hsize < 2 ^ 16 then .phdr src dst 6 (BitVec.ofNat 16 hsize) plen
  else .phdr src dst 6 0xFFFF 0xFFFFFFFF

/-! ### Expansion -/

/-- The commands that sum an IPv4 header without its checksum field: bytes `0..9` and
`12..hsize-1` (R100, R101), after a `CLR` and before the finishing command. -/
def ipv4Body (base hsize : Word) (last : Instr) : List Instr :=
  [.clr, .adds base 10, addsAt (base.toNat + 12) (BitVec.ofNat 32 (hsize.toNat - 12)), last]

/-- The expansion of a pseudo-instruction (R101 to R104).
The only operands refused are an `hsize` below 12 (R101, R102) or below 18 (R104). -/
def Pseudo.expand : Pseudo → Except AsmError (List Instr)
  | .ipv4sum base hsize =>
    if hsize.toNat < 12 then .error .headerTooShort else .ok (ipv4Body base hsize .fin)
  | .ipv4upd base hsize =>
    if hsize.toNat < 12 then .error .headerTooShort
    else .ok (ipv4Body base hsize (stfAt (base.toNat + 10)))
  | .ipv4chk base hsize => .ok [.clr, .adds base hsize, .fin]
  | .tcpsum src dst base hsize pbase plen =>
    if hsize.toNat < 18 then .error .headerTooShort
    else .ok [ .clr, tcpHeader src dst hsize.toNat plen, .adds base 16,
        addsAt (base.toNat + 18) (BitVec.ofNat 32 (hsize.toNat - 18)), .adds pbase plen, .fin ]

/-! ### Running commands -/

/-- Run commands one after another, whatever each answers: a raw command stream (R123, R142). -/
def runAll : List Instr → State → Host.Outcome State Fault Refusal
  | [], s => .next s
  | i :: is, s =>
    match exec i s with
    | .next t => runAll is t
    | .fault e => .fault e
    | .refused r => .refused r

/-- Run commands one after another and stop after the first whose response is not `OK`: how the host runs
an expansion (R51, R107). -/
def runSeq : List Instr → State → Host.Outcome State Fault Refusal
  | [], s => .next s
  | i :: is, s =>
    match exec i s with
    | .next t => if t.lastOk then runSeq is t else .next t
    | .fault e => .fault e
    | .refused r => .refused r

end Sys2Proof.Machine
end

