-- ==== Sys2Proof/Machine/Assembler.lean ====
section
/-!
DEFINITION. The assembler syntax: one line of text to one move of the host (spec 30_encoding.md R50, R51).

The syntax exists so that programs can be written down (R50): no command of the unit depends on it.
Text is a list of characters, so that the kernel can run the assembler.
-/

namespace Sys2Proof.Machine

/-! ### Characters, blanks and separators -/

def isBlank (c : Char) : Bool := c == ' ' || c == '\t' || c == '\r'

/-- A comment runs from `;` to the end of the line (R50). -/
def stripComment (cs : List Char) : List Char := cs.takeWhile (· != ';')

/-- The characters without blanks at either end. -/
def trim (cs : List Char) : List Char :=
  ((cs.dropWhile isBlank).reverse.dropWhile isBlank).reverse

/-- The pieces of a character list between separators, one piece when there is none. -/
def pieces (sep : Char → Bool) : List Char → List (List Char)
  | [] => [[]]
  | c :: cs =>
    if sep c then [] :: pieces sep cs
    else
      match pieces sep cs with
      | [] => [[c]]
      | p :: ps => (c :: p) :: ps

/-! ### Numbers -/

def decDigit (c : Char) : Option Nat :=
  if '0'.toNat ≤ c.toNat ∧ c.toNat ≤ '9'.toNat then some (c.toNat - '0'.toNat) else none

def hexDigit (c : Char) : Option Nat :=
  if 'a'.toNat ≤ c.toNat ∧ c.toNat ≤ 'f'.toNat then some (c.toNat - 'a'.toNat + 10)
  else if 'A'.toNat ≤ c.toNat ∧ c.toNat ≤ 'F'.toNat then some (c.toNat - 'A'.toNat + 10)
  else decDigit c

/-- The value of digits in a base, after a value already read. -/
def digitsFrom (digit : Char → Option Nat) (base : Nat) : Nat → List Char → Option Nat
  | acc, [] => some acc
  | acc, c :: cs =>
    match digit c with
    | some d => digitsFrom digit base (acc * base + d) cs
    | none => none

/-- A non-empty digit string in a base. -/
def digits (digit : Char → Option Nat) (base : Nat) (cs : List Char) : Option Nat :=
  match cs with
  | [] => none
  | _ :: _ => digitsFrom digit base 0 cs

/-- A number: decimal, or hexadecimal after `0x` (R50). -/
def number (cs : List Char) : Option Nat :=
  match cs with
  | '0' :: 'x' :: ds => digits hexDigit 16 ds
  | _ => digits decDigit 10 cs

/-- A number, or for `src` and `dst` the dotted form `a0.a1.a2.a3` (R50).

DESIGN CHOICE (log entry 14): R50 gives no base and no range for the parts of the dotted form.
Here each part is decimal and at most 255, so that `0xC0.168.0.1` and `256.0.0.1` are refused.
Safe: a refused line runs nothing. -/
def addressNumber (cs : List Char) : Option Nat :=
  match pieces (· == '.') cs with
  | [a0, a1, a2, a3] =>
    match digits decDigit 10 a0, digits decDigit 10 a1, digits decDigit 10 a2, digits decDigit 10 a3 with
    | some n0, some n1, some n2, some n3 =>
      if n0 < 256 ∧ n1 < 256 ∧ n2 < 256 ∧ n3 < 256 then
        some (n0 * 2 ^ 24 + n1 * 2 ^ 16 + n2 * 2 ^ 8 + n3)
      else none
    | _, _, _, _ => none
  | _ => number cs

/-- A value that must fit a field of `n` bits (R41). -/
def fit (n : Nat) (v : Option Nat) : Except AsmError (BitVec n) :=
  match v with
  | none => .error .badOperand
  | some x => if x < 2 ^ n then .ok (BitVec.ofNat n x) else .error .operandTooWide

/-- An operand of `n` bits. -/
def operand (n : Nat) (cs : List Char) : Except AsmError (BitVec n) := fit n (number cs)

/-- A 4-byte address operand, dotted or plain. -/
def addressOperand (cs : List Char) : Except AsmError Word := fit 32 (addressNumber cs)

/-- The comma-separated operands of a line, none when nothing stands after the mnemonic. -/
def operandsOf (cs : List Char) : List (List Char) :=
  match trim cs with
  | [] => []
  | t => (pieces (· == ',') t).map trim

/-- Two hexadecimal digits. -/
def byteOf (cs : List Char) : Except AsmError Byte :=
  match cs with
  | [_, _] => fit 8 (digits hexDigit 16 cs)
  | _ => .error .badOperand

/-- Bytes of two hexadecimal digits each, separated by blanks (R5). -/
def bytesOf (cs : List Char) : Except AsmError (List Byte) :=
  ((pieces isBlank cs).filter (· ≠ [])).mapM byteOf

/-! ### Lines -/

/-- A command line: the mnemonic and its operands in the order of R41 (R50). -/
def instrOf (mnemonic : List Char) (ops : List (List Char)) : Except AsmError Instr :=
  if mnemonic = "CLR".toList then
    match ops with
    | [] => .ok .clr
    | _ => .error .wrongOperandCount
  else if mnemonic = "ADD2".toList then
    match ops with
    | [imm16] => do return .add2 (← operand 16 imm16)
    | _ => .error .wrongOperandCount
  else if mnemonic = "ADD4".toList then
    match ops with
    | [imm32] => do return .add4 (← operand 32 imm32)
    | _ => .error .wrongOperandCount
  else if mnemonic = "ADDS".toList then
    match ops with
    | [base, len] => do return .adds (← operand 32 base) (← operand 32 len)
    | _ => .error .wrongOperandCount
  else if mnemonic = "FIN".toList then
    match ops with
    | [] => .ok .fin
    | _ => .error .wrongOperandCount
  else if mnemonic = "STF".toList then
    match ops with
    | [addr] => do return .stf (← operand 32 addr)
    | _ => .error .wrongOperandCount
  else if mnemonic = "RDA".toList then
    match ops with
    | [] => .ok .rda
    | _ => .error .wrongOperandCount
  else if mnemonic = "UPD2".toList then
    match ops with
    | [hc, old, new] => do return .upd2 (← operand 16 hc) (← operand 16 old) (← operand 16 new)
    | _ => .error .wrongOperandCount
  else if mnemonic = "UPD4".toList then
    match ops with
    | [hc, old, new] => do return .upd4 (← operand 16 hc) (← operand 32 old) (← operand 32 new)
    | _ => .error .wrongOperandCount
  else if mnemonic = "PHDR".toList then
    match ops with
    | [src, dst, proto, hlen, plen] => do
      return .phdr (← addressOperand src) (← addressOperand dst) (← operand 8 proto)
        (← operand 16 hlen) (← operand 32 plen)
    | _ => .error .wrongOperandCount
  else .error .unknownMnemonic

/-- A pseudo-instruction line (R51). -/
def pseudoOf (mnemonic : List Char) (ops : List (List Char)) : Except AsmError Pseudo :=
  if mnemonic = "IPV4SUM".toList then
    match ops with
    | [base, hsize] => do return .ipv4sum (← operand 32 base) (← operand 32 hsize)
    | _ => .error .wrongOperandCount
  else if mnemonic = "IPV4UPD".toList then
    match ops with
    | [base, hsize] => do return .ipv4upd (← operand 32 base) (← operand 32 hsize)
    | _ => .error .wrongOperandCount
  else if mnemonic = "IPV4CHK".toList then
    match ops with
    | [base, hsize] => do return .ipv4chk (← operand 32 base) (← operand 32 hsize)
    | _ => .error .wrongOperandCount
  else if mnemonic = "TCPSUM".toList then
    match ops with
    | [src, dst, base, hsize, pbase, plen] => do
      return .tcpsum (← addressOperand src) (← addressOperand dst) (← operand 32 base)
        (← operand 32 hsize) (← operand 32 pbase) (← operand 32 plen)
    | _ => .error .wrongOperandCount
  else .error .unknownMnemonic

/-- The host move of a pseudo-instruction: the words of its expansion, run until the first error
(R51, R107). -/
def Pseudo.move (p : Pseudo) : Except AsmError HostMove := do
  return .sequence ((← p.expand).map encode)

/-- The `.poke addr, <bytes>` directive (R50). -/
def pokeOf (cs : List Char) : Except AsmError HostMove :=
  match operandsOf cs with
  | [addr, bytes] => do return .poke (← operand 32 addr).toNat (← bytesOf bytes)
  | _ => .error .wrongOperandCount

/-- One line: a command, a pseudo-instruction, a host directive, or nothing (R50). -/
def assembleLine (line : List Char) : Except AsmError (Option HostMove) :=
  let text := trim (stripComment line)
  let mnemonic := text.takeWhile (fun c => !isBlank c)
  let rest := text.dropWhile (fun c => !isBlank c)
  if text = [] then .ok none
  else if mnemonic = ".fb".toList then do return some (.load (← bytesOf rest))
  else if mnemonic = ".poke".toList then do return some (← pokeOf rest)
  else
    match instrOf mnemonic (operandsOf rest) with
    | .ok i => .ok (some (.command (encode i)))
    | .error .unknownMnemonic => do return some (← (← pseudoOf mnemonic (operandsOf rest)).move)
    | .error e => .error e

/-- A program: its lines in order, one command a line (R50). -/
def assemble (text : List Char) : Except AsmError (List HostMove) := do
  return (← (pieces (· == '\n') text).mapM assembleLine).filterMap id

end Sys2Proof.Machine
end

