-- ==== Sys2Proof/Machine/Reference.lean ====
section
/-!
DEFINITION. The reference function of the block and the words a command adds
(spec 00_scope.md section 6 and glossary entry "Piece", 40_accumulate.md R65, R67).

No command runs these: they are the values the commands are held against.
-/

namespace Sys2Proof.Machine

/-- `words(B)`: the big-endian words of a byte string, a lone last byte padded with zero (section 6). -/
def wordsOf : List Byte → List HWord
  | [] => []
  | [b] => [be16 b 0]
  | b0 :: b1 :: rest => be16 b0 b1 :: wordsOf rest

/-- The exact sum of a word list (section 6). -/
def exactSum : List HWord → Nat
  | [] => 0
  | w :: ws => w.toNat + exactSum ws

/-- At most `fuel` rounds of the repeat-until-no-carry fold (R8). -/
def foldRounds : Nat → Nat → Nat
  | 0, x => x
  | fuel + 1, x => if x < 2 ^ 16 then x else foldRounds fuel (x % 2 ^ 16 + x / 2 ^ 16)

/-- The fold `while x >= 2^16: x = x[15:0] + (x div 2^16)` of an unbounded natural (R8).
Each round makes `x` smaller, so `x` rounds always suffice. -/
def foldNat (x : Nat) : Nat := foldRounds x x

/-- The Internet checksum of a word list. -/
def inetWords (ws : List HWord) : HWord := ~~~ BitVec.ofNat 16 (foldNat (exactSum ws))

/-- `inet(B)`, the Internet checksum of a byte string (section 6). -/
def inet (bytes : List Byte) : HWord := inetWords (wordsOf bytes)

/-- The command is one of the accumulate family that adds a piece (glossary "Accumulate command"). -/
def accumulates : Instr → Bool
  | .clr => false
  | .add2 _ => true
  | .add4 _ => true
  | .adds _ _ => true
  | .fin => false
  | .stf _ => false
  | .rda => false
  | .upd2 _ _ _ => false
  | .upd4 _ _ _ => false
  | .phdr _ _ _ _ _ => true

/-- The piece of a command in a state: the word list it adds, empty when it answers an error or adds
nothing (glossary "Piece"). -/
def pieceOf (s : State) : Instr → List HWord
  | .clr => []
  | .add2 imm16 => [imm16]
  | .add4 imm32 => halves imm32
  | .adds base len =>
    if windowAdmitted s.fbLen base.toNat len.toNat then
      Memory.windowWords s.fb base.toNat len.toNat
    else []
  | .fin => []
  | .stf _ => []
  | .rda => []
  | .upd2 _ _ _ => []
  | .upd4 _ _ _ => []
  | .phdr src dst proto hlen plen =>
    if lengthTooLarge hlen.toNat plen.toNat then [] else phdrWords src dst proto hlen plen

end Sys2Proof.Machine
end

