-- ==== Sys2Proof/Safety.lean ====
section
/-!
DEFINITION. What a reachable state looks like, what the host owes the unit, and what a safe step is, in
the terms the statements use (spec 10_state.md R13, R18, 30_encoding.md R47, 60_exceptions.md R133,
70_reset_and_hazards.md R141, R143).
-/

namespace Sys2Proof.Machine

/-- The invariant of the machine: every step from a state that meets it leads to a state that meets it. -/
structure StateInv (s : State) : Prop where
  /-- The frame buffer keeps its canonical form (log entry 2). -/
  canonical : Memory.wf s.fb = true
  /-- Every byte listed stands at an address of `FB`, `0 .. FB_LEN - 1` (R13). -/
  inside : ∀ c ∈ s.fb, c.1 < s.fbLen
  /-- `0 <= FB_LEN <= 2^32 - 1` (R4); a longer load is refused (log entry 9). -/
  lenBound : s.fbLen ≤ Config.fbLenMax
  /-- A state in which no frame has been loaded holds no byte of one (log entry 4). -/
  unloadedEmpty : s.loaded = false → s.fb = [] ∧ s.fbLen = 0
  /-- Every error response has value zero (R47). -/
  errorsCarryZero : ∀ q ∈ s.responses, q.wf = true

/-- The command reaches the frame buffer, so it may be issued only after the load (R20, R141). -/
def needsFrame : Instr → Bool
  | .clr => false
  | .add2 _ => false
  | .add4 _ => false
  | .adds _ _ => true
  | .fin => false
  | .stf _ => true
  | .rda => false
  | .upd2 _ _ _ => false
  | .upd4 _ _ _ => false
  | .phdr _ _ _ _ _ => false

/-- The host may issue the word: any word whatever once a frame is loaded, and before that any word but
an `ADDS` or an `STF` (R141, R143). -/
def mayIssue (loaded : Bool) (w : CmdWord) : Bool :=
  match decode w with
  | .ok i => loaded || !needsFrame i
  | .error _ => true

/-- The host keeps its duties in a list of moves, given whether a frame is loaded and its length
(R31, R141, R143): the frame is loaded before the first `ADDS`, `STF` or host write, it is no longer
than `2^32 - 1` bytes, and host writes stay inside `FB`. -/
def obeys : Bool → Nat → List HostMove → Bool
  | _, _, [] => true
  | loaded, fbLen, .poke addr bytes :: ms =>
    loaded && windowAdmitted fbLen addr bytes.length && obeys loaded fbLen ms
  | _, _, .load bytes :: ms =>
    decide (bytes.length ≤ Config.fbLenMax) && obeys true bytes.length ms
  | loaded, fbLen, .command w :: ms => mayIssue loaded w && obeys loaded fbLen ms
  | loaded, fbLen, .sequence ws :: ms => ws.all (mayIssue loaded) && obeys loaded fbLen ms
  | loaded, fbLen, .reset :: ms => obeys loaded fbLen ms

/-- The host's remaining moves keep its duties. -/
def State.hostObeys (s : State) : Bool := obeys s.loaded s.fbLen s.inputs

/-- The number of steps a move takes at most. -/
def moveWork : HostMove → Nat
  | .load _ => 1
  | .poke _ _ => 1
  | .command _ => 1
  | .sequence ws => max 1 ws.length
  | .reset => 1

/-- The number of steps within which a list of moves is carried out. -/
def work : List HostMove → Nat
  | [] => 0
  | m :: ms => moveWork m + work ms

/-- A safe step: it neither faults nor is refused. -/
def SafeStep (s : State) : Prop := ∃ t, step s = .next t

end Sys2Proof.Machine
end

