-- ==== Sys2Proof/Certificates/Slice0/Obligations.lean ====
section
/-!
DEFINITION. The statements for the provers, each read from the numbered rules of spec/.

Arithmetic is written out in naturals where a rule gives a value, so that a statement does not repeat
the definition it is about.
-/

open Sys2Proof Sys2Proof.Machine

/-! ### Vocabulary of the statements -/

/-- The two fold steps of R8 on a natural below `2^32`. -/
def Sys2Proof.Spec.twoStepFold (x : Nat) : Nat :=
  (x % 2 ^ 16 + x / 2 ^ 16) % 2 ^ 16 + (x % 2 ^ 16 + x / 2 ^ 16) / 2 ^ 16

/-- `s` after a command that changes nothing but its response. -/
def Sys2Proof.Spec.answered (q : Response) (s : State) : State :=
  { s with responses := q :: s.responses }

/-- Every byte of `FB`, its length, and the launch's other data are as before; `ACC` and the responses may
differ. -/
def Sys2Proof.Spec.sameFrame (s t : State) : Prop :=
  (∀ a, Memory.read t.fb a = Memory.read s.fb a) ∧ t.fbLen = s.fbLen ∧ t.loaded = s.loaded ∧
    t.inputs = s.inputs

open Sys2Proof.Spec

/-! ### Encoding -/

/-- Words written out bit by bit from R41 and R43 (95_test_vectors.md V-ENC) decode to the commands they
stand for. -/
def Obligations.SpecWordsDecode : Prop :=
  decode 0x01000000000000000000000000000000#128 = .ok .clr ∧
  decode 0x02450000000000000000000000000000#128 = .ok (.add2 0x4500) ∧
  decode 0x03C0A800010000000000000000000000#128 = .ok (.add4 0xC0A80001) ∧
  decode 0x040000000C0000000800000000000000#128 = .ok (.adds 12 8) ∧
  decode 0x05000000000000000000000000000000#128 = .ok .fin ∧
  decode 0x060000000A0000000000000000000000#128 = .ok (.stf 10) ∧
  decode 0x07000000000000000000000000000000#128 = .ok .rda ∧
  decode 0x08B8610000401100003F110000000000#128 = .ok (.upd2 0xB861 0x4011 0x3F11) ∧
  decode 0x09B861C0A800010A0000010000000000#128 = .ok (.upd4 0xB861 0xC0A80001 0x0A000001) ∧
  decode 0x0AC0A80001C0A800C706001400000005#128 = .ok (.phdr 0xC0A80001 0xC0A800C7 6 20 5)

/-- Every field of a command stands at the bits of R41, and every other bit is zero. -/
def Obligations.FieldsStandAtFormatPositions : Prop :=
  (encode .clr).toNat = 0x01 * 2 ^ 120 ∧
  (∀ imm16, (encode (.add2 imm16)).toNat = 0x02 * 2 ^ 120 + imm16.toNat * 2 ^ 104) ∧
  (∀ imm32, (encode (.add4 imm32)).toNat = 0x03 * 2 ^ 120 + imm32.toNat * 2 ^ 88) ∧
  (∀ base len, (encode (.adds base len)).toNat =
    0x04 * 2 ^ 120 + base.toNat * 2 ^ 88 + len.toNat * 2 ^ 56) ∧
  (encode .fin).toNat = 0x05 * 2 ^ 120 ∧
  (∀ addr, (encode (.stf addr)).toNat = 0x06 * 2 ^ 120 + addr.toNat * 2 ^ 88) ∧
  (encode .rda).toNat = 0x07 * 2 ^ 120 ∧
  (∀ hc old new, (encode (.upd2 hc old new)).toNat =
    0x08 * 2 ^ 120 + hc.toNat * 2 ^ 104 + old.toNat * 2 ^ 72 + new.toNat * 2 ^ 40) ∧
  (∀ hc old new, (encode (.upd4 hc old new)).toNat =
    0x09 * 2 ^ 120 + hc.toNat * 2 ^ 104 + old.toNat * 2 ^ 72 + new.toNat * 2 ^ 40) ∧
  (∀ src dst proto hlen plen, (encode (.phdr src dst proto hlen plen)).toNat =
    0x0A * 2 ^ 120 + src.toNat * 2 ^ 88 + dst.toNat * 2 ^ 56 + proto.toNat * 2 ^ 48 +
      hlen.toNat * 2 ^ 32 + plen.toNat)

/-- Decoding the word of any command gives it back, with every operand at every value. -/
def Obligations.DecodeOfEncode : Prop := ∀ i : Instr, decode (encode i) = .ok i

/-- Each word has at most one meaning and no bit of it is ignored: a word that decodes is the word of the
command it decodes to (R44: a reserved bit that is set makes the word illegal). -/
def Obligations.EncodeOfDecode : Prop :=
  ∀ (w : CmdWord) (i : Instr), decode w = .ok i → encode i = w

/-- The mask and match rows of R43 select exactly the words that decode to the row's command, and no two
rows select one word. -/
def Obligations.DecodeAgreesWithOpcodeTable : Prop :=
  (∀ (w : CmdWord), ∀ r ∈ opcodeTable,
    (w &&& r.mask = r.bits ↔ ∃ i, decode w = .ok i ∧ i.mnemonic = r.mnemonic)) ∧
  (∀ (w : CmdWord), ∀ r ∈ opcodeTable, ∀ r' ∈ opcodeTable,
    w &&& r.mask = r.bits → w &&& r'.mask = r'.bits → r = r')

/-- A word is illegal exactly when its opcode is undefined or a reserved bit is set, and then the step that
issues it changes nothing but the responses and answers `E_ILLEGAL` with value zero (R44, R45, R124). -/
def Obligations.IllegalWordsAnswerIllegal : Prop :=
  (∀ w : CmdWord, matchesTable w = CmdWord.wellFormed w) ∧
  (∀ w : CmdWord, ((CmdWord.opcode w).toNat = 0 ∨ 0x0B ≤ (CmdWord.opcode w).toNat) →
    matchesTable w = false) ∧
  (∀ (w : CmdWord) (s : State) (rest : List HostMove), s.inputs = .command w :: rest →
    matchesTable w = false →
    step s = .next { s with inputs := rest, responses := ⟨.eIllegal, 0⟩ :: s.responses })

/-- On a byte-wide path command byte `k` is `W[127-8k : 120-8k]` and response byte `k` is
`Q[39-8k : 32-8k]`, and the received bytes decode as the word sent (R49). -/
def Obligations.BytesTravelMostSignificantFirst : Prop :=
  (∀ (w : CmdWord) (k : Nat), k < 16 →
    (commandBytes w)[k]? = some (w.extractLsb' (120 - 8 * k) 8)) ∧
  (∀ w : CmdWord, (commandBytes w).length = 16 ∧ decodeBytes (commandBytes w) = decode w) ∧
  (∀ (q : Response) (k : Nat), k < 5 →
    (responseBytes q)[k]? = some (q.word.extractLsb' (32 - 8 * k) 8)) ∧
  (∀ q : Response, (responseBytes q).length = 5)

/-- `status = Q[39:32]`, `value = Q[31:0]`, with the codes of R48. -/
def Obligations.ResponseWordHoldsStatusAndValue : Prop :=
  (∀ q : Response, q.word.extractLsb' 32 8 = q.status.code ∧ q.word.extractLsb' 0 32 = q.value) ∧
  Status.code .ok = 0x00 ∧ Status.code .eIllegal = 0x01 ∧ Status.code .eBounds = 0x02 ∧
  Status.code .eTooLarge = 0x03

/-! ### The step -/

/-- When the host's next move is a word that decodes to a command, the step is that command's execution
on the state from which the move is taken; with no move pending the unit is idle and keeps its state
(R12, R132). -/
def Obligations.StepRunsDecodedCommand : Prop :=
  (∀ (w : CmdWord) (i : Instr) (s : State) (rest : List HostMove),
    decode w = .ok i → s.inputs = .command w :: rest →
    step s = exec i { s with inputs := rest }) ∧
  (∀ s : State, s.inputs = [] → step s = .next s)

/-! ### Reset and the host's moves -/

/-- After reset `ACC` is zero, and a reset between commands sets `ACC` to zero and changes nothing else
(R18, R140).
That no frame is loaded and nothing is pending or answered in `State.reset` is the model's reading
(log entry 4). -/
def Obligations.ResetZeroesAccumulatorOnly : Prop :=
  State.reset.acc = 0 ∧
  (∀ (s : State) (rest : List HostMove), s.inputs = .reset :: rest →
    step s = .next { s with inputs := rest, acc := 0 })

/-- A load defines every byte of `FB` and `FB_LEN`, and leaves `ACC` and the responses (R13, R141). -/
def Obligations.LoadDefinesEveryByte : Prop :=
  ∀ (s : State) (bytes : List Byte) (rest : List HostMove),
    s.inputs = .load bytes :: rest → bytes.length ≤ 2 ^ 32 - 1 →
    ∃ t, step s = .next t ∧ (∀ a, t.hostRead a = bytes[a]?) ∧ t.fbLen = bytes.length ∧
      t.acc = s.acc ∧ t.responses = s.responses ∧ t.inputs = rest

/-- A host write between commands changes exactly the bytes it lists, and leaves `ACC` (R29, R31, R149). -/
def Obligations.HostWriteChangesListedBytes : Prop :=
  ∀ (s : State) (addr : Nat) (bytes : List Byte) (rest : List HostMove),
    StateInv s → s.inputs = .poke addr bytes :: rest → s.loaded = true → addr + bytes.length ≤ s.fbLen →
    ∃ t, step s = .next t ∧
      (∀ a, t.hostRead a =
        if addr ≤ a ∧ a < addr + bytes.length then bytes[a - addr]? else s.hostRead a) ∧
      t.fbLen = s.fbLen ∧ t.acc = s.acc ∧ t.responses = s.responses ∧ t.inputs = rest

/-- Before the host has loaded a frame, `ADDS` and `STF` are refused (R141: "a model refuses such a launch
rather than draw bytes"), and once it has, they are not. -/
def Obligations.FrameCommandsNeedTheLoad : Prop :=
  (∀ (s : State) (base len : Word),
    (exec (.adds base len) s = .refused .frameNotLoaded ↔ s.loaded = false)) ∧
  (∀ (s : State) (addr : Word),
    (exec (.stf addr) s = .refused .frameNotLoaded ↔ s.loaded = false)) ∧
  (∀ (s : State) (i : Instr), s.loaded = true ∨ needsFrame i = false → ∃ t, exec i s = .next t)

/-! ### Arithmetic -/

/-- The end-around add of R7: its value, its laws, and that it is plain addition while fewer than
65537 words have been added. -/
def Obligations.EndAroundAddLaws : Prop :=
  (∀ a b : Word, (ocAdd32 a b).toNat =
    if 2 ^ 32 ≤ a.toNat + b.toNat then a.toNat + b.toNat - 2 ^ 32 + 1 else a.toNat + b.toNat) ∧
  (∀ a b : Word, ocAdd32 a b = ocAdd32 b a) ∧
  (∀ a b c : Word, ocAdd32 (ocAdd32 a b) c = ocAdd32 a (ocAdd32 b c)) ∧
  (∀ a b : Word, ocAdd32 a b = 0 ↔ a = 0 ∧ b = 0) ∧
  (∀ a b r : Word, ¬(a = 0 ∧ b = 0) →
    (r = ocAdd32 a b ↔
      1 ≤ r.toNat ∧ r.toNat % (2 ^ 32 - 1) = (a.toNat + b.toNat) % (2 ^ 32 - 1))) ∧
  (∀ a b : Word, (ocAdd32 a b).toNat % 65535 = (a.toNat + b.toNat) % 65535) ∧
  (∀ (ws : List HWord) (w : HWord), ws.length < 65537 →
    (sumWords 0 (ws ++ [w])).toNat = (sumWords 0 ws).toNat + w.toNat)

/-- The fold and the finish of R8: value, agreement with the repeat-until-no-carry fold, and the two
zeros. -/
def Obligations.FoldAndFinishLaws : Prop :=
  (∀ x : Word, (fold16 x).toNat = twoStepFold x.toNat ∧
    (cksum16 x).toNat = 0xFFFF - twoStepFold x.toNat) ∧
  (∀ x : Word, fold16 x = 0 ↔ x = 0) ∧
  (∀ (x : Word) (r : HWord), x ≠ 0 →
    (r = fold16 x ↔ 1 ≤ r.toNat ∧ r.toNat % 65535 = x.toNat % 65535)) ∧
  (∀ x : Word, fold16 x = 0xFFFF ↔ 0 < x.toNat ∧ 65535 ∣ x.toNat) ∧
  (∀ x : Word, (fold16 x).toNat = foldNat x.toNat) ∧
  (∀ x : Word, cksum16 x = 0xFFFF ↔ x = 0) ∧
  (∀ x : Word, cksum16 x = 0x0000 ↔ 0 < x.toNat ∧ 65535 ∣ x.toNat)

/-- The round count of `foldNat` is always enough: it folds every natural to 16 bits, keeping its residue
modulo 65535 and its being zero (00_scope.md section 6). -/
def Obligations.UnboundedFoldReachesSixteenBits : Prop :=
  ∀ x : Nat, foldNat x < 2 ^ 16 ∧ foldNat x % 65535 = x % 65535 ∧ (foldNat x = 0 ↔ x = 0)

/-! ### The accumulate commands -/

/-- `CLR` (R60). -/
def Obligations.ClrStartsNewAccumulation : Prop :=
  decode (BitVec.ofNat 128 (0x01 * 2 ^ 120)) = .ok .clr ∧
  (∀ s : State, exec .clr s = .next { s with acc := 0, responses := ⟨.ok, 0⟩ :: s.responses }) ∧
  (∀ (i : Instr) (s t : State), exec i s = .next t → s.acc ≠ 0 → t.acc = 0 → i = .clr)

/-- `ADD2` (R61). -/
def Obligations.Add2AddsOneWord : Prop :=
  (∀ imm16 : HWord,
    decode (BitVec.ofNat 128 (0x02 * 2 ^ 120 + imm16.toNat * 2 ^ 104)) = .ok (.add2 imm16)) ∧
  (∀ (imm16 : HWord) (s : State), exec (.add2 imm16) s = .next
    { s with
      acc := BitVec.ofNat 32
        (if s.acc.toNat + imm16.toNat < 2 ^ 32 then s.acc.toNat + imm16.toNat
         else s.acc.toNat + imm16.toNat - 2 ^ 32 + 1)
      responses := ⟨.ok, 0⟩ :: s.responses })

/-- `ADD4` (R62): exactly the effect of `ADD2` of the high half and then of the low half, and for `FIN` the
same as adding the 32-bit number at once. -/
def Obligations.Add4AddsBothHalves : Prop :=
  (∀ imm32 : Word,
    decode (BitVec.ofNat 128 (0x03 * 2 ^ 120 + imm32.toNat * 2 ^ 88)) = .ok (.add4 imm32)) ∧
  (∀ (imm32 : Word) (s : State), ∃ t u,
    exec (.add2 (BitVec.ofNat 16 (imm32.toNat / 2 ^ 16))) s = .next t ∧
    exec (.add2 (BitVec.ofNat 16 (imm32.toNat % 2 ^ 16))) t = .next u ∧
    exec (.add4 imm32) s =
      .next { s with acc := u.acc, responses := ⟨.ok, 0⟩ :: s.responses } ∧
    cksum16 u.acc = cksum16 (ocAdd32 s.acc imm32))

/-- `ADDS` (R63) in a launch whose frame is loaded (R141). -/
def Obligations.AddsSumsWindowOrAnswersBounds : Prop :=
  (∀ base len : Word,
    decode (BitVec.ofNat 128 (0x04 * 2 ^ 120 + base.toNat * 2 ^ 88 + len.toNat * 2 ^ 56)) =
      .ok (.adds base len)) ∧
  (∀ (base len : Word) (s : State), s.loaded = true →
    (s.fbLen < base.toNat + len.toNat →
      exec (.adds base len) s = .next (answered ⟨.eBounds, 0⟩ s)) ∧
    (base.toNat + len.toNat ≤ s.fbLen →
      exec (.adds base len) s = .next
        { s with
          acc := sumWords s.acc
            ((List.range (len.toNat / 2)).map (fun i =>
                be16 (Memory.read s.fb (base.toNat + 2 * i))
                  (Memory.read s.fb (base.toNat + 2 * i + 1))) ++
              if len.toNat % 2 = 1 then
                [be16 (Memory.read s.fb (base.toNat + len.toNat - 1)) 0]
              else [])
          responses := ⟨.ok, 0⟩ :: s.responses }))

/-- The odd tail (R25): the pad is a constant zero, so the byte after an odd window is never read, and
making the pad explicit changes nothing. -/
def Obligations.OddTailIsZeroPadded : Prop :=
  (∀ (base len : Word) (s t : State) (b : Byte), len.toNat % 2 = 1 →
    exec (.adds base len) s = .next t →
    exec (.adds base len) { s with fb := Memory.write s.fb (base.toNat + len.toNat) b } =
      .next { t with fb := Memory.write s.fb (base.toNat + len.toNat) b }) ∧
  (∀ (base len len' : Word) (s : State), s.loaded = true → len.toNat % 2 = 1 →
    len'.toNat = len.toNat + 1 → base.toNat + len'.toNat ≤ s.fbLen →
    Memory.read s.fb (base.toNat + len.toNat) = 0 →
    ∃ t, exec (.adds base len) s = .next t ∧ exec (.adds base len') s = .next t)

/-- `ADDS` reads nothing outside its window (R26): frames that agree on the window give the same response
and the same `ACC`. -/
def Obligations.AddsReadsOnlyItsWindow : Prop :=
  ∀ (base len : Word) (s t : State) (m : Memory),
    (∀ a, base.toNat ≤ a → a < base.toNat + len.toNat → Memory.read m a = Memory.read s.fb a) →
    exec (.adds base len) s = .next t →
    exec (.adds base len) { s with fb := m } = .next { t with fb := m }

/-- Accumulate commands add their pieces, and the final `ACC` depends only on the starting `ACC` and the
multiset of words, not on their order or grouping (R65). -/
def Obligations.AccumulationIsOrderIndependent : Prop :=
  (∀ (s : State) (is : List Instr), s.loaded = true → (∀ i ∈ is, accumulates i = true) →
    ∃ t, runAll is s = .next t ∧ t.acc = sumWords s.acc (is.flatMap (pieceOf s))) ∧
  (∀ (s t u : State) (is js : List Instr),
    (∀ i ∈ is, accumulates i = true) → (∀ i ∈ js, accumulates i = true) →
    runAll is s = .next t → runAll js s = .next u →
    (is.flatMap (pieceOf s)).Perm (js.flatMap (pieceOf s)) → t.acc = u.acc)

/-- Splitting a slice at an even offset adds the same words, and at an odd offset in general not
(R64, R66). -/
def Obligations.SliceSplitsAtEvenOffsets : Prop :=
  (∀ (s : State) (base k base' len' len : Word), s.loaded = true → k.toNat % 2 = 0 →
    k.toNat ≤ len.toNat → base'.toNat = base.toNat + k.toNat →
    len'.toNat = len.toNat - k.toNat → base.toNat + len.toNat ≤ s.fbLen →
    ∃ t u, runAll [.adds base k, .adds base' len'] s = .next t ∧
      exec (.adds base len) s = .next u ∧ t.acc = u.acc) ∧
  (∃ (s t u : State) (base k base' len' len : Word), k.toNat ≤ len.toNat ∧
    base'.toNat = base.toNat + k.toNat ∧ len'.toNat = len.toNat - k.toNat ∧
    runAll [.adds base k, .adds base' len'] s = .next t ∧
    exec (.adds base len) s = .next u ∧ t.lastOk = true ∧ u.lastOk = true ∧ t.acc ≠ u.acc)

/-- Exactness for any length (R67): from `ACC = 0`, accumulate commands leave the residue of the exact sum
modulo `2^32 - 1`, zero only for zero, whose fold is the fold of the exact sum; and up to 65537 words
`ACC` is the exact sum. -/
def Obligations.AccumulatedSumIsExact : Prop :=
  ∀ (s t : State) (is : List Instr), (∀ i ∈ is, accumulates i = true) → s.acc = 0 →
    runAll is s = .next t →
    (exactSum (is.flatMap (pieceOf s)) = 0 → t.acc = 0) ∧
    (0 < exactSum (is.flatMap (pieceOf s)) → 1 ≤ t.acc.toNat ∧
      t.acc.toNat % (2 ^ 32 - 1) = exactSum (is.flatMap (pieceOf s)) % (2 ^ 32 - 1)) ∧
    (fold16 t.acc).toNat = foldNat (exactSum (is.flatMap (pieceOf s))) ∧
    ((is.flatMap (pieceOf s)).length ≤ 65537 →
      t.acc.toNat = exactSum (is.flatMap (pieceOf s)))

/-- After `CLR` and accumulate commands whose words are those of a byte string in any order, `FIN` returns
the string's Internet checksum, for every length (00_scope.md section 6). -/
def Obligations.FinReturnsInternetChecksum : Prop :=
  ∀ (s : State) (is : List Instr) (bytes : List Byte), s.loaded = true →
    (∀ i ∈ is, accumulates i = true) → (is.flatMap (pieceOf s)).Perm (wordsOf bytes) →
    ∃ t, runAll (.clr :: is ++ [.fin]) s = .next t ∧
      t.responses.head? = some ⟨.ok, (inet bytes).setWidth 32⟩

/-- The number of additions each command makes (R133, R153), and that they are all it does to `ACC`. -/
def Obligations.AdditionsAreCounted : Prop :=
  (∀ (s : State) (imm16 : HWord), (pieceOf s (.add2 imm16)).length = 1) ∧
  (∀ (s : State) (imm32 : Word), (pieceOf s (.add4 imm32)).length = 2) ∧
  (∀ (s : State) (base len : Word), base.toNat + len.toNat ≤ s.fbLen →
    (pieceOf s (.adds base len)).length = (len.toNat + 1) / 2) ∧
  (∀ (s : State) (src dst : Word) (proto : Byte) (hlen : HWord) (plen : Word),
    hlen.toNat + plen.toNat ≤ 65535 → (pieceOf s (.phdr src dst proto hlen plen)).length = 6) ∧
  (∀ (s t : State) (i : Instr), exec i s = .next t → i ≠ .clr →
    t.acc = sumWords s.acc (pieceOf s i)) ∧
  (∀ (s : State) (i : Instr), accumulates i = false → pieceOf s i = [])

/-! ### The finish commands -/

/-- `FIN` (R70). -/
def Obligations.FinAnswersFoldedComplement : Prop :=
  decode (BitVec.ofNat 128 (0x05 * 2 ^ 120)) = .ok .fin ∧
  (∀ s : State, exec .fin s = .next
    (answered ⟨.ok, BitVec.ofNat 32 (0xFFFF - twoStepFold s.acc.toNat)⟩ s)) ∧
  (∀ x : Word, 0xFFFF - twoStepFold x.toNat = 0xFFFF ↔ x = 0) ∧
  (∀ x : Word, 0xFFFF - twoStepFold x.toNat = 0 ↔ 0 < x.toNat ∧ 65535 ∣ x.toNat) ∧
  (∀ ws : List HWord, sumWords 0 ws = 0 ↔ ∀ w ∈ ws, w = 0)

/-- `STF` (R71) in a launch whose frame is loaded (R141), with its frame: no byte but the two at `addr` and
`addr + 1` changes. -/
def Obligations.StfStoresChecksumBigEndian : Prop :=
  (∀ addr : Word,
    decode (BitVec.ofNat 128 (0x06 * 2 ^ 120 + addr.toNat * 2 ^ 88)) = .ok (.stf addr)) ∧
  (∀ (addr : Word) (s : State), StateInv s → s.loaded = true →
    (s.fbLen < addr.toNat + 2 → exec (.stf addr) s = .next (answered ⟨.eBounds, 0⟩ s)) ∧
    (addr.toNat + 2 ≤ s.fbLen → ∃ t, exec (.stf addr) s = .next t ∧
      Memory.read t.fb addr.toNat =
        BitVec.ofNat 8 ((0xFFFF - twoStepFold s.acc.toNat) / 256) ∧
      Memory.read t.fb (addr.toNat + 1) =
        BitVec.ofNat 8 ((0xFFFF - twoStepFold s.acc.toNat) % 256) ∧
      (∀ a, a ≠ addr.toNat → a ≠ addr.toNat + 1 → Memory.read t.fb a = Memory.read s.fb a) ∧
      t.responses =
        ⟨.ok, BitVec.ofNat 32 (0xFFFF - twoStepFold s.acc.toNat)⟩ :: s.responses ∧
      t.acc = s.acc ∧ t.fbLen = s.fbLen ∧ t.loaded = s.loaded ∧ t.inputs = s.inputs))

/-- `RDA` (R72), and how far a saved sum can be put back. -/
def Obligations.RdaAnswersAccumulator : Prop :=
  decode (BitVec.ofNat 128 (0x07 * 2 ^ 120)) = .ok .rda ∧
  (∀ s : State, exec .rda s = .next (answered ⟨.ok, s.acc⟩ s)) ∧
  (∀ (p : Word) (s : State), ∃ t, runAll [.clr, .add4 p] s = .next t ∧ cksum16 t.acc = cksum16 p)

/-- Finishing does not consume the accumulator (R73): `FIN`, `STF` and `RDA` leave `ACC`, a second `FIN`
answers the same, and pieces added after one extend the same sum. -/
def Obligations.FinishingKeepsAccumulator : Prop :=
  (∀ (s t : State) (addr : Word) (i : Instr), i = .fin ∨ i = .stf addr ∨ i = .rda →
    exec i s = .next t → t.acc = s.acc) ∧
  (∀ s : State, ∃ t q, exec .fin s = .next t ∧ t.responses = q :: s.responses ∧
    exec .fin t = .next (answered q t)) ∧
  (∀ (s t u : State) (i : Instr), exec i s = .next t → runAll [.fin, i] s = .next u →
    u.acc = t.acc)

/-- The verification law (R74): adding the finished value makes `FIN` return zero, whatever the order. -/
def Obligations.AddingChecksumVerifies : Prop :=
  (∀ s : State, ∃ t u, exec (.add2 (cksum16 s.acc)) s = .next t ∧ exec .fin t = .next u ∧
    u.responses.head? = some ⟨.ok, 0⟩) ∧
  (∀ ws ws' : List HWord, ws'.Perm (cksum16 (sumWords 0 ws) :: ws) →
    cksum16 (sumWords 0 ws') = 0)

/-- After the response of an `STF` the host and every later `ADDS` see the two stored bytes (R29): the word
`ADDS` forms there is the word stored (R22), and `ACC` did not follow the store (R34). -/
def Obligations.StoredChecksumIsSeen : Prop :=
  ∀ (s t : State) (addr : Word), StateInv s → exec (.stf addr) s = .next t → t.lastOk = true →
    t.hostRead addr.toNat = some ((cksum16 s.acc).extractLsb' 8 8) ∧
    t.hostRead (addr.toNat + 1) = some ((cksum16 s.acc).extractLsb' 0 8) ∧
    (∃ u, exec (.adds addr 2) t = .next u ∧ u.acc = addWord s.acc (cksum16 s.acc))

/-! ### The incremental-update commands -/

/-- `UPD2` (R80). -/
def Obligations.Upd2AnswersUpdatedChecksum : Prop :=
  (∀ hc old new : HWord,
    decode (BitVec.ofNat 128
      (0x08 * 2 ^ 120 + hc.toNat * 2 ^ 104 + old.toNat * 2 ^ 72 + new.toNat * 2 ^ 40)) =
      .ok (.upd2 hc old new)) ∧
  (∀ (hc old new : HWord) (s : State), exec (.upd2 hc old new) s = .next
    (answered ⟨.ok, BitVec.ofNat 32 (0xFFFF -
      twoStepFold ((0xFFFF - hc.toNat) + (0xFFFF - old.toNat) + new.toNat))⟩ s)) ∧
  (∀ hc old new : HWord, (0xFFFF - hc.toNat) + (0xFFFF - old.toNat) + new.toNat ≤ 0x2FFFD) ∧
  (∀ hc v : HWord, 0xFFFF - twoStepFold ((0xFFFF - hc.toNat) + (0xFFFF - v.toNat) + v.toNat) =
    if hc = 0xFFFF then 0 else hc.toNat) ∧
  (∀ hc old new : HWord,
    0xFFFF - twoStepFold ((0xFFFF - hc.toNat) + (0xFFFF - old.toNat) + new.toNat) = 0xFFFF ↔
      hc = 0xFFFF ∧ old = 0xFFFF ∧ new = 0) ∧
  (∀ (w : CmdWord) (s : State), CmdWord.opcode w = 0x08 →
    w.extractLsb' 88 16 ≠ 0 ∨ w.extractLsb' 56 16 ≠ 0 →
    issue w s = .next (answered ⟨.eIllegal, 0⟩ s))

/-- `UPD4` (R81): the value of two chained `UPD2`. -/
def Obligations.Upd4AnswersUpdatedChecksum : Prop :=
  (∀ (hc : HWord) (old new : Word),
    decode (BitVec.ofNat 128
      (0x09 * 2 ^ 120 + hc.toNat * 2 ^ 104 + old.toNat * 2 ^ 72 + new.toNat * 2 ^ 40)) =
      .ok (.upd4 hc old new)) ∧
  (∀ (hc : HWord) (old new : Word) (s : State), exec (.upd4 hc old new) s = .next
    (answered ⟨.ok, BitVec.ofNat 32 (0xFFFF - twoStepFold
      ((0xFFFF - hc.toNat) + (0xFFFF - old.toNat / 2 ^ 16) + (0xFFFF - old.toNat % 2 ^ 16) +
        new.toNat / 2 ^ 16 + new.toNat % 2 ^ 16))⟩ s)) ∧
  (∀ (hc : HWord) (old new : Word),
    cksum16 (upd4Sum hc old new) =
      cksum16 (upd2Sum (cksum16 (upd2Sum hc (hiHalf old) (hiHalf new))) (loHalf old)
        (loHalf new))) ∧
  (∀ (hc : HWord) (v : Word),
    cksum16 (upd4Sum hc v v) = if hc = 0xFFFF then 0 else hc) ∧
  (∀ (hc : HWord) (old new : Word), upd4Sum hc old new = 0 ↔
    hc = 0xFFFF ∧ old = 0xFFFFFFFF ∧ new = 0) ∧
  (∀ (hc : HWord) (old new : Word), (upd4Sum hc old new).toNat ≤ 0x4FFFB)

/-- The incremental-update law with its exact domain (R82). -/
def Obligations.IncrementalUpdateMatchesRecomputation : Prop :=
  (∀ (before after : List HWord) (old new : HWord) (s : State),
    ∃ v, exec (.upd2 (inetWords (before ++ old :: after)) old new) s =
        .next (answered ⟨.ok, v⟩ s) ∧
      ((∃ w ∈ before ++ new :: after, w ≠ 0) →
        v = (inetWords (before ++ new :: after)).setWidth 32) ∧
      ((∀ w ∈ before ++ new :: after, w = 0) →
        v = 0 ∧ inetWords (before ++ new :: after) = 0xFFFF)) ∧
  (∀ (before after : List HWord) (old new : Word) (s : State),
    ∃ v, exec (.upd4 (inetWords (before ++ halves old ++ after)) old new) s =
        .next (answered ⟨.ok, v⟩ s) ∧
      ((∃ w ∈ before ++ halves new ++ after, w ≠ 0) →
        v = (inetWords (before ++ halves new ++ after)).setWidth 32) ∧
      ((∀ w ∈ before ++ halves new ++ after, w = 0) →
        v = 0 ∧ inetWords (before ++ halves new ++ after) = 0xFFFF))

/-! ### The pseudo-header command -/

/-- `PHDR` (R90): the effect of `ADD4 src; ADD4 dst; ADD2 (0x00 : proto); ADD2 L`, or `E_TOOLARGE`. -/
def Obligations.PhdrAddsPseudoHeaderOrAnswersTooLarge : Prop :=
  (∀ (src dst : Word) (proto : Byte) (hlen : HWord) (plen : Word),
    decode (BitVec.ofNat 128 (0x0A * 2 ^ 120 + src.toNat * 2 ^ 88 + dst.toNat * 2 ^ 56 +
      proto.toNat * 2 ^ 48 + hlen.toNat * 2 ^ 32 + plen.toNat)) =
      .ok (.phdr src dst proto hlen plen)) ∧
  (∀ (src dst : Word) (proto : Byte) (hlen : HWord) (plen : Word) (s : State),
    (65535 < hlen.toNat + plen.toNat →
      exec (.phdr src dst proto hlen plen) s = .next (answered ⟨.eTooLarge, 0⟩ s)) ∧
    (hlen.toNat + plen.toNat ≤ 65535 → ∃ t,
      runAll [.add4 src, .add4 dst, .add2 (BitVec.ofNat 16 proto.toNat),
        .add2 (BitVec.ofNat 16 (hlen.toNat + plen.toNat))] s = .next t ∧
      exec (.phdr src dst proto hlen plen) s =
        .next { s with acc := t.acc, responses := ⟨.ok, 0⟩ :: s.responses }))

/-! ### Errors -/

/-- An error changes no state (R122): whatever word is issued, if its response is not `OK`, then `ACC` and
every byte of `FB` are as before, the value is zero, and no byte of `FB` has been read, since another
frame content gives the same response. -/
def Obligations.ErrorsChangeNoState : Prop :=
  ∀ (w : CmdWord) (s t : State), issue w s = .next t → t.lastOk = false →
    ∃ st : Status, st ≠ .ok ∧ t = answered ⟨st, 0⟩ s ∧
      ∀ m : Memory, issue w { s with fb := m } = .next { t with fb := m }

/-- Which word gets which error (R120, R124 to R127): each status has exactly its one cause, and decode
comes first. -/
def Obligations.EachErrorHasItsCause : Prop :=
  ∀ (w : CmdWord) (s t : State) (q : Response), issue w s = .next t →
    t.responses = q :: s.responses →
    (q.status = .eIllegal ↔ matchesTable w = false) ∧
    (q.status = .eBounds ↔
      (∃ base len, decode w = .ok (.adds base len) ∧ s.fbLen < base.toNat + len.toNat) ∨
      (∃ addr, decode w = .ok (.stf addr) ∧ s.fbLen < addr.toNat + 2)) ∧
    (q.status = .eTooLarge ↔
      ∃ src dst proto hlen plen, decode w = .ok (.phdr src dst proto hlen plen) ∧
        65535 < hlen.toNat + plen.toNat)

/-- After an error response the next command runs as if the failed one had not been issued (R123): same
`ACC`, same `FB`, same response. -/
def Obligations.NextCommandIgnoresTheError : Prop :=
  ∀ (w w' : CmdWord) (s t u : State), issue w s = .next t → t.lastOk = false →
    issue w' s = .next u →
    ∃ q, u.responses = q :: s.responses ∧
      issue w' t = .next { u with responses := q :: t.responses }

/-- Every command terminates with exactly one response (R133, R47): whatever word the host may issue, the
unit answers once, and an error answers value zero. -/
def Obligations.EveryCommandAnswersOnce : Prop :=
  ∀ (w : CmdWord) (s : State), mayIssue s.loaded w = true →
    ∃ t q, issue w s = .next t ∧ t.responses = q :: s.responses ∧ q.wf = true

/-! ### Frames -/

/-- The frame of the commands that write `ACC`: `CLR`, `ADD2`, `ADD4`, `ADDS`, `PHDR` change no byte of `FB`
and nothing of the launch but one more response (R10, R20, R26). -/
def Obligations.AccumulateCommandsKeepTheFrame : Prop :=
  ∀ (i : Instr) (s t : State), i = .clr ∨ accumulates i = true → exec i s = .next t →
    sameFrame s t ∧ ∃ q, t.responses = q :: s.responses

/-- The frame of the commands that only answer: `FIN`, `RDA`, `UPD2`, `UPD4` change neither `ACC` nor any byte
of `FB` (R10, R80, R81). -/
def Obligations.AnsweringCommandsKeepEverything : Prop :=
  ∀ (i : Instr) (s t : State),
    (i = .fin ∨ i = .rda ∨ (∃ hc old new, i = .upd2 hc old new) ∨
      (∃ hc old new, i = .upd4 hc old new)) → exec i s = .next t →
    sameFrame s t ∧ t.acc = s.acc ∧ ∃ q, t.responses = q :: s.responses

/-- The frame of `STF`: every byte outside `addr`, `addr + 1` is unchanged, and every byte at all where the
store is refused (R26, R27, R71). -/
def Obligations.StfKeepsBytesOutsideItsStore : Prop :=
  ∀ (addr : Word) (s t : State), exec (.stf addr) s = .next t →
    (∀ a, a ≠ addr.toNat → a ≠ addr.toNat + 1 → Memory.read t.fb a = Memory.read s.fb a) ∧
    (t.lastOk = false → ∀ a, Memory.read t.fb a = Memory.read s.fb a) ∧
    t.acc = s.acc ∧ t.fbLen = s.fbLen ∧ t.loaded = s.loaded ∧ t.inputs = s.inputs ∧
    ∃ q, t.responses = q :: s.responses

/-- Only `ADDS` and `STF` reach `FB` (R20): every other command gives the same response and the same `ACC`
whatever the frame, loaded or not. -/
def Obligations.OtherCommandsIgnoreTheFrame : Prop :=
  ∀ (i : Instr) (s t : State) (m : Memory) (n : Nat) (b : Bool), needsFrame i = false →
    exec i s = .next t →
    exec i { s with fb := m, fbLen := n, loaded := b } =
      .next { t with fb := m, fbLen := n, loaded := b }

/-! ### The compositions -/

/-- `IPV4SUM` (R101, R105): the Internet checksum of the header without bytes 10 and 11, which is that of the
header with these bytes zero, and no byte of `FB` is written. -/
def Obligations.Ipv4SumIsHeaderChecksum : Prop :=
  ∀ (s : State) (base hsize : Word), s.loaded = true → StateInv s →
    12 ≤ hsize.toNat → base.toNat + hsize.toNat ≤ s.fbLen →
    ∃ is t, (Pseudo.ipv4sum base hsize).expand = .ok is ∧ runSeq is s = .next t ∧ t.fb = s.fb ∧
      t.responses.head? = some ⟨.ok,
        (inet (Memory.windowBytes s.fb base.toNat 10 ++
          Memory.windowBytes s.fb (base.toNat + 12) (hsize.toNat - 12))).setWidth 32⟩ ∧
      inet (Memory.windowBytes s.fb base.toNat 10 ++ [0, 0] ++
          Memory.windowBytes s.fb (base.toNat + 12) (hsize.toNat - 12)) =
        inet (Memory.windowBytes s.fb base.toNat 10 ++
          Memory.windowBytes s.fb (base.toNat + 12) (hsize.toNat - 12))

/-- `IPV4UPD` (R102): stores the header's checksum at bytes 10 and 11, changes no other byte, and issued
again stores the same two bytes. -/
def Obligations.Ipv4UpdateIsIdempotent : Prop :=
  ∀ (s : State) (base hsize : Word), s.loaded = true → StateInv s →
    12 ≤ hsize.toNat → base.toNat + hsize.toNat ≤ s.fbLen →
    ∃ is t u, (Pseudo.ipv4upd base hsize).expand = .ok is ∧ runSeq is s = .next t ∧
      (∃ c, c = inet (Memory.windowBytes s.fb base.toNat 10 ++
          Memory.windowBytes s.fb (base.toNat + 12) (hsize.toNat - 12)) ∧
        t.responses.head? = some ⟨.ok, c.setWidth 32⟩ ∧
        Memory.read t.fb (base.toNat + 10) = c.extractLsb' 8 8 ∧
        Memory.read t.fb (base.toNat + 11) = c.extractLsb' 0 8) ∧
      (∀ a, a ≠ base.toNat + 10 → a ≠ base.toNat + 11 →
        Memory.read t.fb a = Memory.read s.fb a) ∧
      runSeq is t = .next u ∧ u.responses.head? = t.responses.head? ∧
      (∀ a, Memory.read u.fb a = Memory.read t.fb a)

/-- The IPv4 self-check (R103): after `IPV4UPD` the whole header sums to a finished value of zero; and
whenever `IPV4CHK` returns zero the stored checksum is the recomputed one, up to the two zeros.
For every size, below 12 too, `IPV4CHK` answers the Internet checksum of its window and writes no byte. -/
def Obligations.Ipv4CheckVerifiesUpdate : Prop :=
  (∀ (s : State) (base hsize : Word), s.loaded = true → StateInv s →
    12 ≤ hsize.toNat → base.toNat + hsize.toNat ≤ s.fbLen →
    ∃ is js t u, (Pseudo.ipv4upd base hsize).expand = .ok is ∧
      (Pseudo.ipv4chk base hsize).expand = .ok js ∧ runSeq is s = .next t ∧
      runSeq js t = .next u ∧ u.responses.head? = some ⟨.ok, 0⟩) ∧
  (∀ (s : State) (base hsize : Word), s.loaded = true → 12 ≤ hsize.toNat →
    base.toNat + hsize.toNat ≤ s.fbLen →
    ∃ js u, (Pseudo.ipv4chk base hsize).expand = .ok js ∧ runSeq js s = .next u ∧
      (u.responses.head? = some ⟨.ok, 0⟩ →
        ∃ c c', c = be16 (Memory.read s.fb (base.toNat + 10)) (Memory.read s.fb (base.toNat + 11)) ∧
          c' = inet (Memory.windowBytes s.fb base.toNat 10 ++
            Memory.windowBytes s.fb (base.toNat + 12) (hsize.toNat - 12)) ∧
          (c = c' ∨ (c = 0 ∧ c' = 0xFFFF) ∨ (c = 0xFFFF ∧ c' = 0)))) ∧
  (∀ (s : State) (base hsize : Word), s.loaded = true → base.toNat + hsize.toNat ≤ s.fbLen →
    ∃ js u, (Pseudo.ipv4chk base hsize).expand = .ok js ∧ runSeq js s = .next u ∧ u.fb = s.fb ∧
      u.responses.head? =
        some ⟨.ok, (inet (Memory.windowBytes s.fb base.toNat hsize.toNat)).setWidth 32⟩)

/-- `TCPSUM` (R104): the checksum of pseudo-header, header without bytes 16 and 17, and payload, or
`E_TOOLARGE`; no byte of `FB` is written (R105). -/
def Obligations.TcpSumIsSegmentChecksum : Prop :=
  ∀ (s : State) (src dst base hsize pbase plen : Word), s.loaded = true →
    StateInv s → 18 ≤ hsize.toNat → base.toNat + hsize.toNat ≤ s.fbLen →
    pbase.toNat + plen.toNat ≤ s.fbLen →
    ∃ is t, (Pseudo.tcpsum src dst base hsize pbase plen).expand = .ok is ∧
      runSeq is s = .next t ∧ t.fb = s.fb ∧
      t.responses.head? = some
        (if 65535 < hsize.toNat + plen.toNat then ⟨.eTooLarge, 0⟩
         else ⟨.ok, (inetWords
          ([hiHalf src, loHalf src, hiHalf dst, loHalf dst, 0x0006,
              BitVec.ofNat 16 (hsize.toNat + plen.toNat)] ++
            wordsOf (Memory.windowBytes s.fb base.toNat 16) ++
            wordsOf (Memory.windowBytes s.fb (base.toNat + 18) (hsize.toNat - 18)) ++
            wordsOf (Memory.windowBytes s.fb pbase.toNat plen.toNat))).setWidth 32⟩)

/-- A pseudo-instruction stops at the first command whose response is not `OK`, that response is its
response, and `FB` is unchanged then (R107). -/
def Obligations.PseudoStopsAtFirstError : Prop :=
  (∀ (is : List Instr) (s t : State), runSeq is s = .next t →
    (runAll is s = .next t ∧ ∀ q ∈ t.responses.take is.length, q.status = .ok) ∨
    (∃ done i rest u, is = done ++ i :: rest ∧ runAll done s = .next u ∧
      (∀ q ∈ u.responses.take done.length, q.status = .ok) ∧
      exec i u = .next t ∧ t.lastOk = false)) ∧
  (∀ (p : Pseudo) (is : List Instr) (s t : State), p.expand = .ok is → runSeq is s = .next t →
    t.lastOk = false → ∀ a, Memory.read t.fb a = Memory.read s.fb a)

/-- `IPV4SUM` and `IPV4UPD` have an expansion exactly when `hsize` is at least 12, `IPV4CHK` always; and over
a header that does not lie inside `FB` the expansion, run from any state with a frame loaded, answers
`E_BOUNDS` and writes no byte, wherever `base` lies (R101 to R103, R107).
The words issued where `base + 12` or `base + 10` needs more than 32 bits are the model's choice
(log entry 17); their response is the rule's. -/
def Obligations.Ipv4OutsideFrameAnswersBounds : Prop :=
  (∀ base hsize : Word,
    ((∃ is, (Pseudo.ipv4sum base hsize).expand = .ok is) ↔ 12 ≤ hsize.toNat) ∧
    ((∃ is, (Pseudo.ipv4upd base hsize).expand = .ok is) ↔ 12 ≤ hsize.toNat) ∧
    (∃ is, (Pseudo.ipv4chk base hsize).expand = .ok is)) ∧
  (∀ (s : State) (base hsize : Word) (p : Pseudo) (is : List Instr), s.loaded = true →
    (p = .ipv4sum base hsize ∨ p = .ipv4upd base hsize ∨ p = .ipv4chk base hsize) →
    p.expand = .ok is → s.fbLen < base.toNat + hsize.toNat →
    ∃ t, runSeq is s = .next t ∧ t.fb = s.fb ∧ t.responses.head? = some ⟨.eBounds, 0⟩)

/-- `TCPSUM` has an expansion exactly when `hsize` is at least 18; and when its header or payload does not lie
inside `FB`, the expansion, run from any state with a frame loaded, answers an error and writes no byte,
wherever `base` lies: `E_TOOLARGE` when its length exceeds 65535, since `PHDR` comes first, and otherwise
`E_BOUNDS` (R104, R106, R107).
The words issued where `base + 18` needs more than 32 bits or `hsize` more than 16 are the model's choice
(log entry 17); their response is the rule's. -/
def Obligations.TcpOutsideFrameAnswersError : Prop :=
  (∀ src dst base hsize pbase plen : Word,
    (∃ is, (Pseudo.tcpsum src dst base hsize pbase plen).expand = .ok is) ↔ 18 ≤ hsize.toNat) ∧
  (∀ (s : State) (src dst base hsize pbase plen : Word) (is : List Instr),
    s.loaded = true → (Pseudo.tcpsum src dst base hsize pbase plen).expand = .ok is →
    s.fbLen < base.toNat + hsize.toNat ∨ s.fbLen < pbase.toNat + plen.toNat →
    ∃ t, runSeq is s = .next t ∧ t.fb = s.fb ∧
      t.responses.head? = some
        (if 65535 < hsize.toNat + plen.toNat then ⟨.eTooLarge, 0⟩ else ⟨.eBounds, 0⟩))

/-- The host's sequence move, one command a step, does what running the expansion does (R51, R107).
That a host runs an expansion as one move, its commands one a step with nothing between, is the model's
choice (log entry 13). -/
def Obligations.SequenceStepsRefineExpansion : Prop :=
  ∀ (is : List Instr) (s : State) (rest : List HostMove),
    s.inputs = .sequence (is.map encode) :: rest → is ≠ [] →
    ∃ k, k ≤ is.length ∧ core.run k s = runSeq is { s with inputs := rest }

/-! ### Invariants and whole-machine rules -/

/-- The invariant holds at reset.
It rests on the model's choices: the spec gives no reset value but that of `ACC` (R18), and that no frame is
loaded, `FB_LEN` is 0 and nothing has been answered is log entry 4; the canonical form is log entry 2. -/
def Obligations.InvHoldsAtReset : Prop := StateInv State.reset

/-- Every step keeps the invariant: the frame buffer stays canonical and inside `FB_LEN`, `FB_LEN` stays a
legal length (R4), and every error response carries value zero (R47).
The canonical form is the model's choice (log entry 2), as are the empty frame of a state in which none has
been loaded (log entry 4) and the refusal of a load longer than `2^32 - 1` bytes (log entry 9). -/
def Obligations.StepKeepsInv : Prop :=
  ∀ s t : State, StateInv s → step s = .next t → StateInv t

/-- Equal frame buffers are equal data: two canonical memories with the same bytes are the same list. -/
def Obligations.CanonicalMemoriesAreEqual : Prop :=
  ∀ m n : Memory, Memory.wf m = true → Memory.wf n = true →
    (∀ a, Memory.read m a = Memory.read n a) → m = n

/-- When the host keeps its duties (R31, R141, R143) no step faults or is refused, and the duties still to
come stay kept: the unit cannot hang or lose a command (R133). -/
def Obligations.ObedientHostIsNeverStopped : Prop :=
  ∀ s : State, s.hostObeys = true → ∃ t, step s = .next t ∧ t.hostObeys = true

/-- An obedient host's moves are all carried out within their counted number of steps (R133, R142). -/
def Obligations.ObedientHostMovesAreCarriedOut : Prop :=
  ∀ s : State, s.hostObeys = true →
    ∃ t, core.run (work s.inputs) s = .next t ∧ t.inputs = []

/-- Within a launch nothing changes `FB_LEN`, and a frame once loaded stays loaded: only a load does either
(R13, R143). -/
def Obligations.OnlyLoadChangesFrameLength : Prop :=
  ∀ (s t : State) (m : HostMove) (rest : List HostMove), s.inputs = m :: rest →
    step s = .next t → (∀ bytes, m ≠ .load bytes) → t.fbLen = s.fbLen ∧ t.loaded = s.loaded

/-- A byte of `FB` changes in a step only by an `STF` of a store that is in bounds, by a host write, or by
a load: no other command and no reset writes it (R13, R20, R140). -/
def Obligations.OnlyStoresAndHostWritesChangeFrame : Prop :=
  ∀ (s t : State) (m : HostMove) (rest : List HostMove) (a : Nat), s.inputs = m :: rest →
    step s = .next t → Memory.read t.fb a ≠ Memory.read s.fb a →
    (∃ bytes, m = .load bytes) ∨ (∃ addr bytes, m = .poke addr bytes) ∨
    (∃ w addr, (m = .command w ∨ ∃ ws, m = .sequence (w :: ws)) ∧ decode w = .ok (.stf addr) ∧
      addr.toNat + 2 ≤ s.fbLen ∧ (a = addr.toNat ∨ a = addr.toNat + 1))
end

