-- ==== Sys2Proof/Laws/Arith.lean ====
section
/-!
SUPPORT. One spec lemma per arithmetic function: its value as a natural.
-/

namespace Sys2Proof.Machine

theorem be16_toNat (b0 b1 : Byte) : (be16 b0 b1).toNat = b0.toNat * 256 + b1.toNat := by
  have h0 := b0.isLt
  have h1 := b1.isLt
  simp only [be16, BitVec.toNat_ofNat]
  omega

theorem be32_toNat (b0 b1 b2 b3 : Byte) : (be32 b0 b1 b2 b3).toNat =
    b0.toNat * 2 ^ 24 + b1.toNat * 2 ^ 16 + b2.toNat * 2 ^ 8 + b3.toNat := by
  have h0 := b0.isLt
  have h1 := b1.isLt
  have h2 := b2.isLt
  have h3 := b3.isLt
  simp only [be32, BitVec.toNat_ofNat]
  omega

theorem hiHalf_toNat (v : Word) : (hiHalf v).toNat = v.toNat / 2 ^ 16 := by
  have h := v.isLt
  simp only [hiHalf, BitVec.extractLsb'_toNat, Nat.shiftRight_eq_div_pow]
  omega

theorem loHalf_toNat (v : Word) : (loHalf v).toNat = v.toNat % 2 ^ 16 := by
  simp [loHalf, BitVec.extractLsb'_toNat]

theorem ocAdd32_toNat (a b : Word) : (ocAdd32 a b).toNat =
    if 2 ^ 32 ≤ a.toNat + b.toNat then a.toNat + b.toNat - 2 ^ 32 + 1 else a.toNat + b.toNat := by
  have ha := a.isLt
  have hb := b.isLt
  simp only [ocAdd32, carryOut, decide_eq_true_eq, BitVec.toNat_ofNat]
  split <;> omega

theorem addWord_toNat (acc : Word) (w : HWord) : (addWord acc w).toNat =
    if 2 ^ 32 ≤ acc.toNat + w.toNat then acc.toNat + w.toNat - 2 ^ 32 + 1
    else acc.toNat + w.toNat := by
  have hw := w.isLt
  rw [addWord, ocAdd32_toNat, BitVec.toNat_setWidth, Nat.mod_eq_of_lt (by omega)]

@[simp] theorem sumWords_nil (acc : Word) : sumWords acc [] = acc := rfl

@[simp] theorem sumWords_cons (acc : Word) (w : HWord) (ws : List HWord) :
    sumWords acc (w :: ws) = sumWords (addWord acc w) ws := rfl

theorem sumWords_append (acc : Word) (ws ws' : List HWord) :
    sumWords acc (ws ++ ws') = sumWords (sumWords acc ws) ws' := by
  simp only [sumWords, List.foldl_append]

theorem fold16_toNat (x : Word) : (fold16 x).toNat =
    (x.toNat % 2 ^ 16 + x.toNat / 2 ^ 16) % 2 ^ 16 +
      (x.toNat % 2 ^ 16 + x.toNat / 2 ^ 16) / 2 ^ 16 := by
  have hx := x.isLt
  simp only [fold16, BitVec.toNat_ofNat]
  omega

theorem cksum16_toNat (x : Word) : (cksum16 x).toNat = 0xFFFF - (fold16 x).toNat := by
  rw [cksum16, BitVec.toNat_not]

theorem upd2Sum_toNat (hc old new : HWord) : (upd2Sum hc old new).toNat =
    (0xFFFF - hc.toNat) + (0xFFFF - old.toNat) + new.toNat := by
  have h := new.isLt
  simp only [upd2Sum, BitVec.toNat_ofNat, BitVec.toNat_not]
  omega

theorem upd4Sum_toNat (hc : HWord) (old new : Word) : (upd4Sum hc old new).toNat =
    (0xFFFF - hc.toNat) + (0xFFFF - old.toNat / 2 ^ 16) + (0xFFFF - old.toNat % 2 ^ 16) +
      new.toNat / 2 ^ 16 + new.toNat % 2 ^ 16 := by
  have h := new.isLt
  simp only [upd4Sum, BitVec.toNat_ofNat, BitVec.toNat_not, hiHalf_toNat, loHalf_toNat]
  omega

@[simp] theorem exactSum_nil : exactSum [] = 0 := rfl

@[simp] theorem exactSum_cons (w : HWord) (ws : List HWord) :
    exactSum (w :: ws) = w.toNat + exactSum ws := rfl

theorem exactSum_append (ws ws' : List HWord) :
    exactSum (ws ++ ws') = exactSum ws + exactSum ws' := by
  induction ws with
  | nil => simp
  | cons w ws ih => simp only [List.cons_append, exactSum_cons, ih]; omega

end Sys2Proof.Machine
end

