-- ==== Sys2Proof/Laws/Decode.lean ====
section
/-!
SUPPORT. The small lemmas of the decoder and the encoder, bit by bit.
-/

namespace Sys2Proof

theorem CmdWord.getLsbD_field (w : CmdWord) (lo n k : Nat) :
    (CmdWord.field w lo n).getLsbD k = (decide (k < n) && w.getLsbD (lo + k)) := by
  simp [CmdWord.field]

theorem CmdWord.getLsbD_opcode (w : CmdWord) (k : Nat) :
    (CmdWord.opcode w).getLsbD k = (decide (k < 8) && w.getLsbD (120 + k)) := by
  simp [CmdWord.opcode]

/-- A placed value has its bit `k - lo` at bit `k`. -/
theorem getLsbD_placeField {n : Nat} (v : BitVec n) (lo k : Nat) :
    (placeField v lo).getLsbD k = (decide (k < 128) && decide (lo ≤ k) && v.getLsbD (k - lo)) := by
  rw [placeField, BitVec.getLsbD_shiftLeft, BitVec.getLsbD_setWidth]
  by_cases hl : lo ≤ k
  · by_cases hk : k < 128
    · simp [hk, hl, Nat.not_lt.2 hl, show k - lo < 128 by omega]
    · simp [hk]
  · simp [hl, Nat.lt_of_not_le hl]

/-! ### Fields of a word that is put together from placed values -/

theorem CmdWord.opcode_eq_field (w : CmdWord) : CmdWord.opcode w = CmdWord.field w 120 8 := rfl

theorem CmdWord.field_or (v w : CmdWord) (lo n : Nat) :
    CmdWord.field (v ||| w) lo n = CmdWord.field v lo n ||| CmdWord.field w lo n := by
  apply BitVec.eq_of_getLsbD_eq
  intro k _
  rw [BitVec.getLsbD_or, CmdWord.getLsbD_field, CmdWord.getLsbD_field, CmdWord.getLsbD_field,
    BitVec.getLsbD_or, Bool.and_or_distrib_left]

@[simp] theorem CmdWord.field_zero (lo n : Nat) : CmdWord.field 0 lo n = 0 := by
  apply BitVec.eq_of_getLsbD_eq
  intro k _
  rw [CmdWord.getLsbD_field]
  simp

/-- The field a value is placed in reads as the value. -/
theorem CmdWord.field_place_same {n : Nat} (v : BitVec n) (lo : Nat) (h : lo + n ≤ 128) :
    CmdWord.field (placeField v lo) lo n = v := by
  apply BitVec.eq_of_getLsbD_eq
  intro k hk
  rw [CmdWord.getLsbD_field, getLsbD_placeField]
  simp [hk, show lo + k < 128 by omega]

/-- A field that the placed value does not reach reads as zero. -/
theorem CmdWord.field_place_apart {m : Nat} (v : BitVec m) (lo' lo n : Nat)
    (h : lo + n ≤ lo' ∨ lo' + m ≤ lo) : CmdWord.field (placeField v lo') lo n = 0 := by
  apply BitVec.eq_of_getLsbD_eq
  intro k hk
  rw [CmdWord.getLsbD_field, getLsbD_placeField]
  rcases h with h | h
  · simp [show ¬ lo' ≤ lo + k by omega]
  · simp [BitVec.getLsbD_of_ge v (lo + k - lo') (by omega)]

/-! ### The decoder's reserved condition -/

theorem acceptIf_ok {c : Bool} {w : CmdWord} {i j : Instr} :
    acceptIf c w i = .ok j ↔ c = true ∧ i = j := by
  cases c <;> simp [acceptIf]

theorem acceptIf_error {c : Bool} {w : CmdWord} {i : Instr} {e : DecodeError} :
    acceptIf c w i = .error e ↔ c = false ∧ DecodeError.reservedBitSet w.opcode = e := by
  cases c <;> simp [acceptIf]

theorem CmdWord.zeroBelow_iff (w : CmdWord) (lo : Nat) :
    CmdWord.zeroBelow w lo = true ↔ ∀ k, k < lo → w.getLsbD k = false := by
  simp only [CmdWord.zeroBelow, beq_iff_eq]
  constructor
  · intro h k hk
    have h := congrArg (fun v => v.getLsbD k) h
    simp only [CmdWord.getLsbD_field, hk, decide_true, Bool.true_and, Nat.zero_add] at h
    rw [h]
    exact BitVec.getLsbD_zero
  · intro h
    apply BitVec.eq_of_getLsbD_eq
    intro k hk
    rw [CmdWord.getLsbD_field, Nat.zero_add, h k hk, Bool.and_false]
    exact BitVec.getLsbD_zero.symm

end Sys2Proof
end

