-- ==== Sys2Proof/Laws/Memory.lean ====
section
/-!
SUPPORT. The laws of the frame buffer as a memory: a read after a write, the canonical form that every
operation keeps, and that writes inside `FB` list no address outside it.
-/

namespace Sys2Proof.Machine

@[simp] theorem Memory.read_nil (a : Nat) : Memory.read [] a = 0 := rfl

theorem Memory.read_cons (x a : Nat) (b : Byte) (m : Memory) :
    Memory.read ((x, b) :: m) a = if x = a then b else Memory.read m a := rfl

/-! ### The canonical form -/

theorem Memory.wfFrom_cons {lo x : Nat} {b : Byte} {m : Memory} :
    Memory.wfFrom lo ((x, b) :: m) = true ↔ lo ≤ x ∧ b ≠ 0 ∧ Memory.wfFrom (x + 1) m = true := by
  simp [Memory.wfFrom, and_assoc]

theorem Memory.wfFrom_mono {lo lo' : Nat} {m : Memory} (h : lo' ≤ lo)
    (hm : Memory.wfFrom lo m = true) : Memory.wfFrom lo' m = true := by
  cases m with
  | nil => rfl
  | cons c m =>
    obtain ⟨x, b⟩ := c
    rw [Memory.wfFrom_cons] at hm ⊢
    exact ⟨by omega, hm.2⟩

/-- A canonical memory lists nothing below its bound. -/
theorem Memory.read_below {m : Memory} {lo a : Nat} (hm : Memory.wfFrom lo m = true) (ha : a < lo) :
    Memory.read m a = 0 := by
  induction m generalizing lo with
  | nil => rfl
  | cons c m ih =>
    obtain ⟨x, b⟩ := c
    rw [Memory.wfFrom_cons] at hm
    rw [Memory.read_cons, if_neg (by omega)]
    exact ih hm.2.2 (by omega)

/-! ### Read after write -/

/-- A write leaves every other address alone, in any memory. -/
theorem Memory.read_write_other {m : Memory} {a x : Nat} {v : Byte} (h : x ≠ a) :
    Memory.read (Memory.write m a v) x = Memory.read m x := by
  induction m with
  | nil =>
    simp only [Memory.write]
    split
    · rfl
    · rw [Memory.read_cons, if_neg (Ne.symm h)]
  | cons c m ih =>
    obtain ⟨y, b⟩ := c
    simp only [Memory.write]
    split
    · split
      · rfl
      · rw [Memory.read_cons, if_neg (Ne.symm h)]
    · split
      · next hay =>
        subst hay
        split
        · rw [Memory.read_cons, if_neg (Ne.symm h)]
        · rw [Memory.read_cons, Memory.read_cons, if_neg (Ne.symm h), if_neg (Ne.symm h)]
      · rw [Memory.read_cons, Memory.read_cons, ih]

/-- A read after a write to the same address gives the value written, in a canonical memory. -/
theorem Memory.read_write_same {m : Memory} {lo a : Nat} {v : Byte}
    (hm : Memory.wfFrom lo m = true) : Memory.read (Memory.write m a v) a = v := by
  induction m generalizing lo with
  | nil =>
    simp only [Memory.write]
    split
    · next hv => rw [hv]; rfl
    · rw [Memory.read_cons, if_pos rfl]
  | cons c m ih =>
    obtain ⟨y, b⟩ := c
    rw [Memory.wfFrom_cons] at hm
    simp only [Memory.write]
    split
    · next hlt =>
      split
      · next hv =>
        rw [Memory.read_cons, if_neg (by omega), Memory.read_below hm.2.2 (by omega), hv]
      · rw [Memory.read_cons, if_pos rfl]
    · split
      · next hay =>
        split
        · next hv => rw [Memory.read_below hm.2.2 (by omega), hv]
        · rw [Memory.read_cons, if_pos rfl]
      · next hay => rw [Memory.read_cons, if_neg (Ne.symm hay), ih hm.2.2]

theorem Memory.read_write {m : Memory} {lo a x : Nat} {v : Byte} (hm : Memory.wfFrom lo m = true) :
    Memory.read (Memory.write m a v) x = if x = a then v else Memory.read m x := by
  split
  · next h => rw [h, Memory.read_write_same hm]
  · next h => exact Memory.read_write_other h

/-! ### Operations keep the canonical form -/

theorem Memory.write_wfFrom {m : Memory} {lo a : Nat} {v : Byte} (hm : Memory.wfFrom lo m = true)
    (ha : lo ≤ a) : Memory.wfFrom lo (Memory.write m a v) = true := by
  induction m generalizing lo with
  | nil =>
    simp only [Memory.write]
    split
    · rfl
    · next hv => exact Memory.wfFrom_cons.2 ⟨ha, hv, rfl⟩
  | cons c m ih =>
    obtain ⟨y, b⟩ := c
    have h := Memory.wfFrom_cons.1 hm
    simp only [Memory.write]
    split
    · next hlt =>
      split
      · exact hm
      · next hv => exact Memory.wfFrom_cons.2 ⟨ha, hv, Memory.wfFrom_cons.2 ⟨by omega, h.2⟩⟩
    · split
      · next hay =>
        subst hay
        split
        · exact Memory.wfFrom_mono (by omega) h.2.2
        · next hv => exact Memory.wfFrom_cons.2 ⟨ha, hv, h.2.2⟩
      · next hlt hay => exact Memory.wfFrom_cons.2 ⟨h.1, h.2.1, ih h.2.2 (by omega)⟩

theorem Memory.write_wf {m : Memory} {a : Nat} {v : Byte} (hm : Memory.wf m = true) :
    Memory.wf (Memory.write m a v) = true := Memory.write_wfFrom hm (Nat.zero_le a)

theorem Memory.writeBytes_wf {m : Memory} {a : Nat} {bs : List Byte} (hm : Memory.wf m = true) :
    Memory.wf (Memory.writeBytes m a bs) = true := by
  induction bs generalizing m a with
  | nil => exact hm
  | cons b bs ih => exact ih (Memory.write_wf hm)

theorem Memory.memWrite_wf {m : Memory} {a n v : Nat} (hm : Memory.wf m = true) :
    Memory.wf (Memory.memWrite m a n v) = true := Memory.writeBytes_wf hm

theorem Memory.ofBytes_wfFrom (a : Nat) (bs : List Byte) :
    Memory.wfFrom a (Memory.ofBytes a bs) = true := by
  induction bs generalizing a with
  | nil => rfl
  | cons b bs ih =>
    simp only [Memory.ofBytes]
    split
    · exact Memory.wfFrom_mono (Nat.le_succ a) (ih (a + 1))
    · next hb => exact Memory.wfFrom_cons.2 ⟨Nat.le_refl a, hb, ih (a + 1)⟩

theorem Memory.ofBytes_wf (bs : List Byte) : Memory.wf (Memory.ofBytes 0 bs) = true :=
  Memory.ofBytes_wfFrom 0 bs

/-! ### Reads after block writes -/

theorem Memory.read_writeBytes {m : Memory} {a x : Nat} {bs : List Byte}
    (hm : Memory.wf m = true) : Memory.read (Memory.writeBytes m a bs) x =
      if a ≤ x ∧ x < a + bs.length then bs.getD (x - a) 0 else Memory.read m x := by
  induction bs generalizing m a with
  | nil => rw [if_neg (by simp)]; rfl
  | cons b bs ih =>
    rw [Memory.writeBytes, ih (Memory.write_wf hm), Memory.read_write hm, List.length_cons]
    by_cases hx : x = a
    · subst hx
      rw [if_neg (by omega), if_pos rfl, if_pos (by omega)]
      simp
    · by_cases h1 : a + 1 ≤ x ∧ x < a + 1 + bs.length
      · rw [if_pos h1, if_pos (by omega), show x - a = (x - (a + 1)) + 1 by omega]
        simp
      · rw [if_neg h1, if_neg hx, if_neg (by omega)]

/-- A block write leaves every address outside the block alone, in any memory. -/
theorem Memory.read_writeBytes_other {m : Memory} {a x : Nat} {bs : List Byte}
    (h : x < a ∨ a + bs.length ≤ x) :
    Memory.read (Memory.writeBytes m a bs) x = Memory.read m x := by
  induction bs generalizing m a with
  | nil => rfl
  | cons b bs ih =>
    rw [List.length_cons] at h
    rw [Memory.writeBytes, ih (by omega), Memory.read_write_other (by omega)]

theorem Memory.read_ofBytes (a x : Nat) (bs : List Byte) :
    Memory.read (Memory.ofBytes a bs) x = if a ≤ x then bs.getD (x - a) 0 else 0 := by
  induction bs generalizing a with
  | nil => simp [Memory.ofBytes]
  | cons b bs ih =>
    have hcase : Memory.read (Memory.ofBytes a (b :: bs)) x =
        if a = x then b else Memory.read (Memory.ofBytes (a + 1) bs) x := by
      simp only [Memory.ofBytes]
      split
      · next hb =>
        split
        · next hax => rw [ih, if_neg (by omega), hb]
        · rfl
      · rw [Memory.read_cons]
    rw [hcase, ih]
    by_cases hx : a = x
    · subst hx; simp
    · by_cases h1 : a + 1 ≤ x
      · rw [if_neg hx, if_pos h1, if_pos (by omega), show x - a = (x - (a + 1)) + 1 by omega]
        simp
      · rw [if_neg hx, if_neg h1, if_neg (by omega)]

/-! ### The addresses a memory lists -/

theorem Memory.mem_write {m : Memory} {a : Nat} {v : Byte} {c : Host.Cell}
    (h : c ∈ Memory.write m a v) : c ∈ m ∨ c = (a, v) := by
  induction m with
  | nil =>
    simp only [Memory.write] at h
    split at h <;> simp_all
  | cons d m ih =>
    obtain ⟨y, b⟩ := d
    simp only [Memory.write] at h
    split at h
    · split at h
      · exact .inl h
      · rcases List.mem_cons.1 h with h | h
        · exact .inr h
        · exact .inl h
    · split at h
      · split at h
        · exact .inl (List.mem_cons_of_mem _ h)
        · rcases List.mem_cons.1 h with h | h
          · exact .inr h
          · exact .inl (List.mem_cons_of_mem _ h)
      · rcases List.mem_cons.1 h with h | h
        · exact .inl (h ▸ List.mem_cons_self)
        · exact (ih h).imp_left (List.mem_cons_of_mem _)

theorem Memory.mem_writeBytes {m : Memory} {a : Nat} {bs : List Byte} {c : Host.Cell}
    (h : c ∈ Memory.writeBytes m a bs) : c ∈ m ∨ (a ≤ c.1 ∧ c.1 < a + bs.length) := by
  induction bs generalizing m a with
  | nil => exact .inl h
  | cons b bs ih =>
    rw [List.length_cons]
    rcases ih h with h | h
    · rcases Memory.mem_write h with h | h
      · exact .inl h
      · subst h; exact .inr ⟨Nat.le_refl a, by show a < _; omega⟩
    · exact .inr (by omega)

theorem Memory.mem_ofBytes {a : Nat} {bs : List Byte} {c : Host.Cell}
    (h : c ∈ Memory.ofBytes a bs) : a ≤ c.1 ∧ c.1 < a + bs.length := by
  induction bs generalizing a with
  | nil => simp [Memory.ofBytes] at h
  | cons b bs ih =>
    rw [List.length_cons]
    simp only [Memory.ofBytes] at h
    split at h
    · have := ih h; omega
    · rcases List.mem_cons.1 h with h | h
      · subst h; exact ⟨Nat.le_refl a, by show a < _; omega⟩
      · have := ih h; omega

end Sys2Proof.Machine
end

