-- ==== Sys2Proof/Laws/State.lean ====
section
/-!
SUPPORT. One lemma per field per update of State, so that no later proof unfolds a record update.
-/

namespace Sys2Proof.Machine

@[simp] theorem State.respond_acc (v : Word) (s : State) : (s.respond v).acc = s.acc := rfl
@[simp] theorem State.respond_fb (v : Word) (s : State) : (s.respond v).fb = s.fb := rfl
@[simp] theorem State.respond_fbLen (v : Word) (s : State) : (s.respond v).fbLen = s.fbLen := rfl
@[simp] theorem State.respond_loaded (v : Word) (s : State) : (s.respond v).loaded = s.loaded := rfl
@[simp] theorem State.respond_inputs (v : Word) (s : State) : (s.respond v).inputs = s.inputs := rfl
@[simp] theorem State.respond_responses (v : Word) (s : State) :
    (s.respond v).responses = ⟨.ok, v⟩ :: s.responses := rfl
@[simp] theorem State.respond_lastOk (v : Word) (s : State) : (s.respond v).lastOk = true := rfl

@[simp] theorem State.raise_acc (e : CmdError) (s : State) : (s.raise e).acc = s.acc := rfl
@[simp] theorem State.raise_fb (e : CmdError) (s : State) : (s.raise e).fb = s.fb := rfl
@[simp] theorem State.raise_fbLen (e : CmdError) (s : State) : (s.raise e).fbLen = s.fbLen := rfl
@[simp] theorem State.raise_loaded (e : CmdError) (s : State) : (s.raise e).loaded = s.loaded := rfl
@[simp] theorem State.raise_inputs (e : CmdError) (s : State) : (s.raise e).inputs = s.inputs := rfl
@[simp] theorem State.raise_responses (e : CmdError) (s : State) :
    (s.raise e).responses = ⟨e.status, 0⟩ :: s.responses := rfl
@[simp] theorem State.raise_lastOk (e : CmdError) (s : State) : (s.raise e).lastOk = false := by
  cases e <;> rfl

@[simp] theorem State.setAcc_acc (v : Word) (s : State) : (s.setAcc v).acc = v := rfl
@[simp] theorem State.setAcc_fb (v : Word) (s : State) : (s.setAcc v).fb = s.fb := rfl
@[simp] theorem State.setAcc_fbLen (v : Word) (s : State) : (s.setAcc v).fbLen = s.fbLen := rfl
@[simp] theorem State.setAcc_loaded (v : Word) (s : State) : (s.setAcc v).loaded = s.loaded := rfl
@[simp] theorem State.setAcc_inputs (v : Word) (s : State) : (s.setAcc v).inputs = s.inputs := rfl
@[simp] theorem State.setAcc_responses (v : Word) (s : State) :
    (s.setAcc v).responses = s.responses := rfl

@[simp] theorem State.accAdd_acc (ws : List HWord) (s : State) :
    (s.accAdd ws).acc = sumWords s.acc ws := rfl
@[simp] theorem State.accAdd_fb (ws : List HWord) (s : State) : (s.accAdd ws).fb = s.fb := rfl
@[simp] theorem State.accAdd_fbLen (ws : List HWord) (s : State) :
    (s.accAdd ws).fbLen = s.fbLen := rfl
@[simp] theorem State.accAdd_loaded (ws : List HWord) (s : State) :
    (s.accAdd ws).loaded = s.loaded := rfl
@[simp] theorem State.accAdd_inputs (ws : List HWord) (s : State) :
    (s.accAdd ws).inputs = s.inputs := rfl
@[simp] theorem State.accAdd_responses (ws : List HWord) (s : State) :
    (s.accAdd ws).responses = s.responses := rfl

@[simp] theorem State.store_acc (a n v : Nat) (s : State) : (s.store a n v).acc = s.acc := rfl
@[simp] theorem State.store_fb (a n v : Nat) (s : State) :
    (s.store a n v).fb = Memory.memWrite s.fb a n v := rfl
@[simp] theorem State.store_fbLen (a n v : Nat) (s : State) : (s.store a n v).fbLen = s.fbLen := rfl
@[simp] theorem State.store_loaded (a n v : Nat) (s : State) : (s.store a n v).loaded = s.loaded := rfl
@[simp] theorem State.store_inputs (a n v : Nat) (s : State) : (s.store a n v).inputs = s.inputs := rfl
@[simp] theorem State.store_responses (a n v : Nat) (s : State) :
    (s.store a n v).responses = s.responses := rfl

@[simp] theorem State.loadFrame_acc (bs : List Byte) (s : State) : (s.loadFrame bs).acc = s.acc := rfl
@[simp] theorem State.loadFrame_fb (bs : List Byte) (s : State) :
    (s.loadFrame bs).fb = Memory.ofBytes 0 bs := rfl
@[simp] theorem State.loadFrame_fbLen (bs : List Byte) (s : State) :
    (s.loadFrame bs).fbLen = bs.length := rfl
@[simp] theorem State.loadFrame_loaded (bs : List Byte) (s : State) :
    (s.loadFrame bs).loaded = true := rfl
@[simp] theorem State.loadFrame_inputs (bs : List Byte) (s : State) :
    (s.loadFrame bs).inputs = s.inputs := rfl
@[simp] theorem State.loadFrame_responses (bs : List Byte) (s : State) :
    (s.loadFrame bs).responses = s.responses := rfl

@[simp] theorem State.pokeBytes_acc (a : Nat) (bs : List Byte) (s : State) :
    (s.pokeBytes a bs).acc = s.acc := rfl
@[simp] theorem State.pokeBytes_fb (a : Nat) (bs : List Byte) (s : State) :
    (s.pokeBytes a bs).fb = Memory.writeBytes s.fb a bs := rfl
@[simp] theorem State.pokeBytes_fbLen (a : Nat) (bs : List Byte) (s : State) :
    (s.pokeBytes a bs).fbLen = s.fbLen := rfl
@[simp] theorem State.pokeBytes_loaded (a : Nat) (bs : List Byte) (s : State) :
    (s.pokeBytes a bs).loaded = s.loaded := rfl
@[simp] theorem State.pokeBytes_inputs (a : Nat) (bs : List Byte) (s : State) :
    (s.pokeBytes a bs).inputs = s.inputs := rfl
@[simp] theorem State.pokeBytes_responses (a : Nat) (bs : List Byte) (s : State) :
    (s.pokeBytes a bs).responses = s.responses := rfl

end Sys2Proof.Machine
end

