-- ==== Sys2Proof/Laws/Ops.lean ====
section
/-!
SUPPORT. One lemma per shared operation that says once what it can do.
-/

namespace Sys2Proof.Machine

/-! ### Conditions -/

theorem windowAdmitted_iff {n base len : Nat} :
    windowAdmitted n base len = true ↔ base + len ≤ n := by
  simp [windowAdmitted]

theorem windowAdmitted_false_iff {n base len : Nat} :
    windowAdmitted n base len = false ↔ n < base + len := by
  simp [windowAdmitted]

theorem lengthTooLarge_iff {h p : Nat} : lengthTooLarge h p = true ↔ 65535 < h + p := by
  simp [lengthTooLarge]

theorem lengthTooLarge_false_iff {h p : Nat} : lengthTooLarge h p = false ↔ h + p ≤ 65535 := by
  simp [lengthTooLarge]

/-! ### The window guard -/

/-- The guard answers a next state exactly in a loaded launch: the error response outside the window's
bounds and the body's state inside. -/
theorem withWindow_next {base len : Nat} {body : State → State} {s t : State} :
    withWindow base len body s = .next t ↔
      s.loaded = true ∧ ((base + len ≤ s.fbLen ∧ t = body s) ∨
        (s.fbLen < base + len ∧ t = s.raise .boundsError)) := by
  unfold withWindow
  split
  · next hl =>
    split
    · next hw =>
      have := windowAdmitted_iff.1 hw
      constructor
      · intro h; cases h; exact ⟨hl, .inl ⟨this, rfl⟩⟩
      · rintro ⟨-, ⟨-, h⟩ | ⟨h, -⟩⟩
        · rw [h]
        · omega
    · next hw =>
      have := windowAdmitted_false_iff.1 (Bool.eq_false_iff.2 hw)
      constructor
      · intro h; cases h; exact ⟨hl, .inr ⟨this, rfl⟩⟩
      · rintro ⟨-, ⟨h, -⟩ | ⟨-, h⟩⟩
        · omega
        · rw [h]
  · next hl => simp [hl]

theorem withWindow_admitted {base len : Nat} {body : State → State} {s : State}
    (hl : s.loaded = true) (h : base + len ≤ s.fbLen) :
    withWindow base len body s = .next (body s) := withWindow_next.2 ⟨hl, .inl ⟨h, rfl⟩⟩

theorem withWindow_outside {base len : Nat} {body : State → State} {s : State}
    (hl : s.loaded = true) (h : s.fbLen < base + len) :
    withWindow base len body s = .next (s.raise .boundsError) :=
  withWindow_next.2 ⟨hl, .inr ⟨h, rfl⟩⟩

theorem withWindow_unloaded {base len : Nat} {body : State → State} {s : State}
    (hl : s.loaded = false) : withWindow base len body s = .refused .frameNotLoaded := by
  simp [withWindow, hl]

/-! ### The words of a window -/

theorem Memory.fullWords_length (m : Memory) (a n : Nat) : (Memory.fullWords m a n).length = n := by
  induction n generalizing a with
  | zero => rfl
  | succ n ih => simp [Memory.fullWords, ih]

theorem Memory.tailWord_length (m : Memory) (base len : Nat) :
    (Memory.tailWord m base len).length = len % 2 := by
  unfold Memory.tailWord
  split <;> simp <;> omega

theorem Memory.windowWords_length (m : Memory) (base len : Nat) :
    (Memory.windowWords m base len).length = (len + 1) / 2 := by
  rw [Memory.windowWords, List.length_append, Memory.fullWords_length, Memory.tailWord_length]
  omega

/-- The word of two bytes is the big-endian read of R22. -/
theorem Memory.memRead_two (m : Memory) (a : Nat) :
    BitVec.ofNat 16 (Memory.memRead m a 2) = be16 (Memory.read m a) (Memory.read m (a + 1)) := by
  simp [Memory.memRead, be16]

theorem Memory.memRead_one (m : Memory) (a : Nat) :
    BitVec.ofNat 16 (Memory.memRead m a 1 * 256) = be16 (Memory.read m a) 0 := by
  simp [Memory.memRead, be16]

/-- The words of a window depend on no byte outside it. -/
theorem Memory.windowWords_congr {m n : Memory} {base len : Nat}
    (h : ∀ a, base ≤ a → a < base + len → Memory.read m a = Memory.read n a) :
    Memory.windowWords m base len = Memory.windowWords n base len := by
  have full : ∀ k a, base ≤ a → a + 2 * k ≤ base + len →
      Memory.fullWords m a k = Memory.fullWords n a k := by
    intro k
    induction k with
    | zero => intros; rfl
    | succ k ih =>
      intro a ha hk
      simp only [Memory.fullWords, Memory.memRead_two]
      rw [h a ha (by omega), h (a + 1) (by omega) (by omega), ih (a + 2) (by omega) (by omega)]
  have tail : Memory.tailWord m base len = Memory.tailWord n base len := by
    unfold Memory.tailWord
    split
    · rw [Memory.memRead_one, Memory.memRead_one, h _ (by omega) (by omega)]
    · rfl
  rw [Memory.windowWords, Memory.windowWords, full _ _ (Nat.le_refl _) (by omega), tail]

/-- The two bytes a 16-bit store writes, high byte first (R22). -/
theorem beBytes_two (v : Nat) : beBytes 2 v = [BitVec.ofNat 8 (v / 256), BitVec.ofNat 8 v] := by
  simp [beBytes]

theorem beBytes_length (n v : Nat) : (beBytes n v).length = n := by
  induction n with
  | zero => rfl
  | succ n ih => simp [beBytes, ih]

end Sys2Proof.Machine
end

