-- ==== Sys2Proof/Laws/Exec.lean ====
section
/-!
SUPPORT. What a command can do, said once: the next states of each meaning, of `exec`, of issuing a word
and of a step.
-/

namespace Sys2Proof.Machine

/-! ### Each command's next states -/

theorem exec_clr (s : State) : exec .clr s = .next ((s.setAcc 0).respond 0) := rfl

theorem exec_add2 (imm16 : HWord) (s : State) :
    exec (.add2 imm16) s = .next ((s.accAdd [imm16]).respond 0) := rfl

theorem exec_add4 (imm32 : Word) (s : State) :
    exec (.add4 imm32) s = .next ((s.accAdd (halves imm32)).respond 0) := rfl

theorem exec_fin (s : State) : exec .fin s = .next (s.respond (s.finished.setWidth 32)) := rfl

theorem exec_rda (s : State) : exec .rda s = .next (s.respond s.acc) := rfl

theorem exec_upd2 (hc old new : HWord) (s : State) : exec (.upd2 hc old new) s =
    .next (s.respond ((cksum16 (upd2Sum hc old new)).setWidth 32)) := rfl

theorem exec_upd4 (hc : HWord) (old new : Word) (s : State) : exec (.upd4 hc old new) s =
    .next (s.respond ((cksum16 (upd4Sum hc old new)).setWidth 32)) := rfl

theorem exec_adds_next {base len : Word} {s t : State} : exec (.adds base len) s = .next t ↔
    s.loaded = true ∧ ((base.toNat + len.toNat ≤ s.fbLen ∧
        t = (s.accAdd (Memory.windowWords s.fb base.toNat len.toNat)).respond 0) ∨
      (s.fbLen < base.toNat + len.toNat ∧ t = s.raise .boundsError)) := by
  rw [exec, execAdds, withWindow_next]

theorem exec_adds_inside {base len : Word} {s : State} (hl : s.loaded = true)
    (h : base.toNat + len.toNat ≤ s.fbLen) : exec (.adds base len) s =
      .next ((s.accAdd (Memory.windowWords s.fb base.toNat len.toNat)).respond 0) :=
  exec_adds_next.2 ⟨hl, .inl ⟨h, rfl⟩⟩

theorem exec_adds_outside {base len : Word} {s : State} (hl : s.loaded = true)
    (h : s.fbLen < base.toNat + len.toNat) : exec (.adds base len) s = .next (s.raise .boundsError) :=
  exec_adds_next.2 ⟨hl, .inr ⟨h, rfl⟩⟩

theorem exec_stf_next {addr : Word} {s t : State} : exec (.stf addr) s = .next t ↔
    s.loaded = true ∧ ((addr.toNat + 2 ≤ s.fbLen ∧
        t = (s.store addr.toNat 2 s.finished.toNat).respond (s.finished.setWidth 32)) ∨
      (s.fbLen < addr.toNat + 2 ∧ t = s.raise .boundsError)) := by
  rw [exec, execStf, withWindow_next]

theorem exec_phdr_ok {src dst : Word} {proto : Byte} {hlen : HWord} {plen : Word} {s : State}
    (h : hlen.toNat + plen.toNat ≤ 65535) : exec (.phdr src dst proto hlen plen) s =
      .next ((s.accAdd (phdrWords src dst proto hlen plen)).respond 0) := by
  simp [exec, execPhdr, lengthTooLarge_false_iff.2 h]

theorem exec_phdr_tooLarge {src dst : Word} {proto : Byte} {hlen : HWord} {plen : Word} {s : State}
    (h : 65535 < hlen.toNat + plen.toNat) :
    exec (.phdr src dst proto hlen plen) s = .next (s.raise .valueTooLarge) := by
  simp [exec, execPhdr, lengthTooLarge_iff.2 h]

/-! ### Every command at once -/

/-- A command that answers a next state is an error response that changes nothing else, a `CLR`, an
addition of its piece, a bare answer, or an `STF` in bounds. -/
theorem exec_next_cases {i : Instr} {s t : State} (h : exec i s = .next t) :
    (∃ e : CmdError, t = s.raise e) ∨
    (i = .clr ∧ t = (s.setAcc 0).respond 0) ∨
    (accumulates i = true ∧ t = (s.accAdd (pieceOf s i)).respond 0) ∨
    (∃ v, accumulates i = false ∧ t = s.respond v) ∨
    (∃ addr : Word, i = .stf addr ∧ addr.toNat + 2 ≤ s.fbLen ∧ s.loaded = true ∧
      t = (s.store addr.toNat 2 s.finished.toNat).respond (s.finished.setWidth 32)) := by
  cases i with
  | clr => cases h; exact .inr (.inl ⟨rfl, rfl⟩)
  | add2 imm16 => cases h; exact .inr (.inr (.inl ⟨rfl, rfl⟩))
  | add4 imm32 => cases h; exact .inr (.inr (.inl ⟨rfl, rfl⟩))
  | adds base len =>
    obtain ⟨-, ⟨hw, rfl⟩ | ⟨-, rfl⟩⟩ := exec_adds_next.1 h
    · exact .inr (.inr (.inl ⟨rfl, by simp [pieceOf, windowAdmitted_iff.2 hw]⟩))
    · exact .inl ⟨_, rfl⟩
  | fin => cases h; exact .inr (.inr (.inr (.inl ⟨_, rfl, rfl⟩)))
  | stf addr =>
    obtain ⟨hl, ⟨hw, rfl⟩ | ⟨-, rfl⟩⟩ := exec_stf_next.1 h
    · exact .inr (.inr (.inr (.inr ⟨addr, rfl, hw, hl, rfl⟩)))
    · exact .inl ⟨_, rfl⟩
  | rda => cases h; exact .inr (.inr (.inr (.inl ⟨_, rfl, rfl⟩)))
  | upd2 hc old new => cases h; exact .inr (.inr (.inr (.inl ⟨_, rfl, rfl⟩)))
  | upd4 hc old new => cases h; exact .inr (.inr (.inr (.inl ⟨_, rfl, rfl⟩)))
  | phdr src dst proto hlen plen =>
    by_cases hw : hlen.toNat + plen.toNat ≤ 65535
    · rw [exec_phdr_ok hw] at h
      cases h
      exact .inr (.inr (.inl ⟨rfl, by simp [pieceOf, lengthTooLarge_false_iff.2 hw]⟩))
    · rw [exec_phdr_tooLarge (by omega)] at h
      cases h
      exact .inl ⟨_, rfl⟩

/-- No command touches what belongs to the launch. -/
theorem exec_keeps_launch {i : Instr} {s t : State} (h : exec i s = .next t) :
    t.inputs = s.inputs ∧ t.fbLen = s.fbLen ∧ t.loaded = s.loaded := by
  obtain ⟨e, rfl⟩ | ⟨-, rfl⟩ | ⟨-, rfl⟩ | ⟨v, -, rfl⟩ | ⟨addr, -, -, -, rfl⟩ := exec_next_cases h <;>
    exact ⟨rfl, rfl, rfl⟩

/-- No command faults. -/
theorem exec_no_fault {i : Instr} {s : State} {e : Fault} : exec i s ≠ .fault e := by
  cases i <;> simp only [exec, execClr, execAdd2, execAdd4, execAdds, execFin, execStf, execRda,
    execUpd2, execUpd4, execPhdr, withWindow] <;> (repeat' split) <;> simp

/-! ### Issuing a word, and the step -/

theorem issue_ok {w : CmdWord} {i : Instr} {s : State} (h : decode w = .ok i) :
    issue w s = exec i s := by
  simp [issue, h]

theorem issue_error {w : CmdWord} {e : DecodeError} {s : State} (h : decode w = .error e) :
    issue w s = .next (s.raise .illegalCommand) := by
  simp [issue, h]

/-- Issuing a word runs the command it decodes to, or answers `E_ILLEGAL`. -/
theorem issue_next_cases {w : CmdWord} {s t : State} (h : issue w s = .next t) :
    (∃ i, decode w = .ok i ∧ exec i s = .next t) ∨
    (∃ e, decode w = .error e ∧ t = s.raise .illegalCommand) := by
  cases hd : decode w with
  | ok i => exact .inl ⟨i, rfl, by rwa [issue_ok hd] at h⟩
  | error e =>
    rw [issue_error hd] at h
    cases h
    exact .inr ⟨e, rfl, rfl⟩

theorem issue_keeps_launch {w : CmdWord} {s t : State} (h : issue w s = .next t) :
    t.inputs = s.inputs ∧ t.fbLen = s.fbLen ∧ t.loaded = s.loaded := by
  obtain ⟨i, -, h⟩ | ⟨e, -, rfl⟩ := issue_next_cases h
  · exact exec_keeps_launch h
  · exact ⟨rfl, rfl, rfl⟩

theorem step_nil {s : State} (h : s.inputs = []) : step s = .next s := by
  simp [step, h]

theorem step_cons {s : State} {m : HostMove} {rest : List HostMove} (h : s.inputs = m :: rest) :
    step s = takeMove m { s with inputs := rest } := by
  simp [step, h]

/-- A sequence answers a next state by issuing its first word, and keeps the rest only after an `OK`. -/
theorem issueSequence_next_cases {ws : List CmdWord} {s t : State}
    (h : issueSequence ws s = .next t) :
    (ws = [] ∧ t = s) ∨
    (∃ w rest u, ws = w :: rest ∧ issue w s = .next u ∧
      t = if u.lastOk then { u with inputs := pushSequence rest u.inputs } else u) := by
  cases ws with
  | nil => cases h; exact .inl ⟨rfl, rfl⟩
  | cons w rest =>
    simp only [issueSequence] at h
    split at h
    · next u hu => cases h; exact .inr ⟨w, rest, u, rfl, hu, rfl⟩
    · cases h
    · cases h

/-! ### Commands of an expansion with exact operands -/

theorem exec_addsAt_inside {base : Nat} {len : Word} {s : State} (hl : s.loaded = true)
    (hb : s.fbLen < 2 ^ 32) (h : base + len.toNat ≤ s.fbLen) : exec (addsAt base len) s =
      .next ((s.accAdd (Memory.windowWords s.fb base len.toNat)).respond 0) := by
  have fits : base < 2 ^ 32 := by omega
  have value : (BitVec.ofNat 32 base).toNat = base := by simp; omega
  rw [addsAt, if_pos fits, exec_adds_inside hl (by omega), value]

/-- A window outside `FB` answers `E_BOUNDS` also where its start needs more than 32 bits (R24, R101).
The bound on the window's end holds of every `base + hsize` of two 32-bit operands. -/
theorem exec_addsAt_outside {base : Nat} {len : Word} {s : State} (hl : s.loaded = true)
    (he : base + len.toNat ≤ 2 ^ 33 - 2) (h : s.fbLen < base + len.toNat) :
    exec (addsAt base len) s = .next (s.raise .boundsError) := by
  rw [addsAt]
  split
  · next fits =>
    have value : (BitVec.ofNat 32 base).toNat = base := by simp; omega
    exact exec_adds_outside hl (by omega)
  · refine exec_adds_outside hl ?_
    have top : (0xFFFFFFFF : Word).toNat = 2 ^ 32 - 1 := rfl
    omega

theorem stfAt_of_fits {addr : Nat} (h : addr < 2 ^ 32) :
    stfAt addr = .stf (BitVec.ofNat 32 addr) := by rw [stfAt, if_pos h]

theorem exec_tcpHeader_ok {src dst plen : Word} {hsize : Nat} {s : State}
    (h : hsize + plen.toNat ≤ 65535) : exec (tcpHeader src dst hsize plen) s =
      .next ((s.accAdd (phdrWords src dst 6 (BitVec.ofNat 16 hsize) plen)).respond 0) := by
  have value : (BitVec.ofNat 16 hsize).toNat = hsize := by simp; omega
  rw [tcpHeader, if_pos (by omega), exec_phdr_ok (by omega)]

/-- A segment that is too long answers `E_TOOLARGE` also where `hsize` needs more than 16 bits
(R91, R104). -/
theorem exec_tcpHeader_tooLarge {src dst plen : Word} {hsize : Nat} {s : State}
    (h : 65535 < hsize + plen.toNat) :
    exec (tcpHeader src dst hsize plen) s = .next (s.raise .valueTooLarge) := by
  rw [tcpHeader]
  split
  · next fits =>
    have value : (BitVec.ofNat 16 hsize).toNat = hsize := by simp; omega
    exact exec_phdr_tooLarge (by omega)
  · exact exec_phdr_tooLarge (by decide)

/-! ### Sequences of commands -/

theorem runAll_cons {i : Instr} {is : List Instr} {s t : State} (h : exec i s = .next t) :
    runAll (i :: is) s = runAll is t := by
  simp [runAll, h]

/-- After an `OK` the rest of the sequence runs (R51). -/
theorem runSeq_cons_ok {i : Instr} {is : List Instr} {s t : State} (h : exec i s = .next t)
    (hok : t.lastOk = true) : runSeq (i :: is) s = runSeq is t := by
  simp [runSeq, h, hok]

/-- After an error the sequence stops there (R107). -/
theorem runSeq_cons_error {i : Instr} {is : List Instr} {s t : State} (h : exec i s = .next t)
    (he : t.lastOk = false) : runSeq (i :: is) s = .next t := by
  simp [runSeq, h, he]

/-- The big-endian words of a window's bytes are the words `ADDS` adds for it (R9, R63). -/
theorem wordsOf_windowBytes (m : Memory) :
    ∀ n a : Nat, wordsOf (Memory.windowBytes m a n) = Memory.windowWords m a n
  | 0, _ => rfl
  | 1, _ => by
    simp [Memory.windowBytes, wordsOf, Memory.windowWords, Memory.fullWords, Memory.tailWord,
      Memory.memRead, be16]
  | n + 2, a => by
    have tail : Memory.tailWord m a (n + 2) = Memory.tailWord m (a + 2) n := by
      simp only [Memory.tailWord, Nat.add_mod_right]
      rw [show a + (n + 2) - 1 = a + 2 + n - 1 by omega]
    have words := wordsOf_windowBytes m n (a + 2)
    simp only [Memory.windowWords] at words ⊢
    rw [show (n + 2) / 2 = n / 2 + 1 by omega, Memory.fullWords, tail, List.cons_append, ← words]
    simp [Memory.windowBytes, wordsOf, be16, Memory.memRead]

end Sys2Proof.Machine
end

