-- ==== Sys2Proof/Laws/PerInstr.lean ====
section
/-!
SUPPORT. Laws made per instruction: the families that LAWS.json names, one lemma per constructor.
-/

namespace Sys2Proof.Laws

/-! ### EncodedOpcode: the opcode of a command's word is the command's opcode (R40, R43) -/

def EncodedOpcode.Statement (i : Instr) : Prop := CmdWord.opcode (encode i) = i.opcode

theorem EncodedOpcode.clr : EncodedOpcode.Statement .clr := by
  simp (disch := omega) [Statement, encode, Instr.operandBits, CmdWord.opcode_eq_field,
    CmdWord.field_place_same]

theorem EncodedOpcode.add2 (imm16 : HWord) : EncodedOpcode.Statement (.add2 imm16) := by
  simp (disch := omega) [Statement, encode, Instr.operandBits, CmdWord.opcode_eq_field,
    CmdWord.field_or, CmdWord.field_place_same, CmdWord.field_place_apart]

theorem EncodedOpcode.add4 (imm32 : Word) : EncodedOpcode.Statement (.add4 imm32) := by
  simp (disch := omega) [Statement, encode, Instr.operandBits, CmdWord.opcode_eq_field,
    CmdWord.field_or, CmdWord.field_place_same, CmdWord.field_place_apart]

theorem EncodedOpcode.adds (base len : Word) : EncodedOpcode.Statement (.adds base len) := by
  simp (disch := omega) [Statement, encode, Instr.operandBits, CmdWord.opcode_eq_field,
    CmdWord.field_or, CmdWord.field_place_same, CmdWord.field_place_apart]

theorem EncodedOpcode.fin : EncodedOpcode.Statement .fin := by
  simp (disch := omega) [Statement, encode, Instr.operandBits, CmdWord.opcode_eq_field,
    CmdWord.field_place_same]

theorem EncodedOpcode.stf (addr : Word) : EncodedOpcode.Statement (.stf addr) := by
  simp (disch := omega) [Statement, encode, Instr.operandBits, CmdWord.opcode_eq_field,
    CmdWord.field_or, CmdWord.field_place_same, CmdWord.field_place_apart]

theorem EncodedOpcode.rda : EncodedOpcode.Statement .rda := by
  simp (disch := omega) [Statement, encode, Instr.operandBits, CmdWord.opcode_eq_field,
    CmdWord.field_place_same]

theorem EncodedOpcode.upd2 (hc old new : HWord) :
    EncodedOpcode.Statement (.upd2 hc old new) := by
  simp (disch := omega) [Statement, encode, Instr.operandBits, CmdWord.opcode_eq_field,
    CmdWord.field_or, CmdWord.field_place_same, CmdWord.field_place_apart]

theorem EncodedOpcode.upd4 (hc : HWord) (old new : Word) :
    EncodedOpcode.Statement (.upd4 hc old new) := by
  simp (disch := omega) [Statement, encode, Instr.operandBits, CmdWord.opcode_eq_field,
    CmdWord.field_or, CmdWord.field_place_same, CmdWord.field_place_apart]

theorem EncodedOpcode.phdr (src dst : Word) (proto : Byte) (hlen : HWord) (plen : Word) :
    EncodedOpcode.Statement (.phdr src dst proto hlen plen) := by
  simp (disch := omega) [Statement, encode, Instr.operandBits, CmdWord.opcode_eq_field,
    CmdWord.field_or, CmdWord.field_place_same, CmdWord.field_place_apart]

end Sys2Proof.Laws
end

