-- ==== Sys2Proof/Tests/Slice0.lean ====
section
/-!
SUPPORT. Tests of the model on the spec's own vectors (spec/95_test_vectors.md and the rules' examples), the
well-formedness smoke tests, and for each statement with hypotheses a witness that meets them.

Every expected value is the spec's: the vector or rule is named in each test's comment.
-/

namespace Sys2Proof.Tests

open Sys2Proof.Machine

/-! ### Helpers -/

/-- A state after reset, a load of the frame, and a given `ACC`. -/
def loadedState (acc : Word) (frame : List Byte) : State :=
  { State.reset.loadFrame frame with acc := acc }

/-- The state a command leads to, where it leads to one. -/
def after (i : Instr) (s : State) : Option State :=
  match exec i s with
  | .next t => some t
  | .fault _ => none
  | .refused _ => none

/-- `ACC` after a command. -/
def accAfter (i : Instr) (s : State) : Option Word := (after i s).map (·.acc)

/-- The 40-bit response word of a command. -/
def answer (i : Instr) (s : State) : Option RspWord :=
  (after i s).bind fun t => t.responses.head?.map Response.word

/-- The state a step leads to, where it leads to one. -/
def stepped (s : State) : Option State :=
  match step s with
  | .next t => some t
  | .fault _ => none
  | .refused _ => none

/-- The rule's frame `01 02 03 04`, with `ACC = 0x1234` (V-ERR). -/
def errState : State := loadedState 0x1234 [0x01, 0x02, 0x03, 0x04]

/-- The header of V-IP1, checksum field zero. -/
def ipState : State := loadedState 0
  [0x45, 0x00, 0x00, 0x73, 0x00, 0x00, 0x40, 0x00, 0x40, 0x11, 0x00, 0x00,
   0xC0, 0xA8, 0x00, 0x01, 0xC0, 0xA8, 0x00, 0xC7]

/-! ### Well-formed words: one ill-formed word for each check -/

/-- V-ILL1: opcode `0x00`. -/
theorem test_wf_opcode_zero :
    CmdWord.opcodeDefined 0x00000000000000000000000000000000#128 = false := by decide
/-- V-ILL2: opcode `0x0B`. -/
theorem test_wf_opcode_unassigned :
    CmdWord.opcodeDefined 0x0B000000000000000000000000000000#128 = false := by decide
/-- V-ILL4: `CLR` with bit 0 set. -/
theorem test_wf_clr_reserved :
    CmdWord.reservedZero 0x01000000000000000000000000000001#128 = false := by decide
/-- V-ILL7: `ADD2` with bit 103 set. -/
theorem test_wf_add2_reserved :
    CmdWord.reservedZero 0x02450080000000000000000000000000#128 = false := by decide
/-- V-ILL8: `ADD4` with bit 87 set. -/
theorem test_wf_add4_reserved :
    CmdWord.reservedZero 0x03000000008000000000000000000000#128 = false := by decide
/-- V-ILL10: `ADDS` with bit 55 set. -/
theorem test_wf_adds_reserved :
    CmdWord.reservedZero 0x04000000000000000080000000000000#128 = false := by decide
/-- V-ILL5: `FIN` with bit 119 set. -/
theorem test_wf_fin_reserved :
    CmdWord.reservedZero 0x05800000000000000000000000000000#128 = false := by decide
/-- V-ILL9: `STF 10` with bit 0 set. -/
theorem test_wf_stf_reserved :
    CmdWord.reservedZero 0x060000000A0000000000000000000001#128 = false := by decide
/-- V-ILL6: `RDA` with bit 64 set. -/
theorem test_wf_rda_reserved :
    CmdWord.reservedZero 0x07000000000000010000000000000000#128 = false := by decide
/-- V-ILL11: `UPD2` with `old[16]` set. -/
theorem test_wf_upd2_old_upper :
    CmdWord.reservedZero 0x08B8610001401100003F110000000000#128 = false := by decide
/-- V-ILL12: `UPD2` with `new[31]` set. -/
theorem test_wf_upd2_new_upper :
    CmdWord.reservedZero 0x08B8610000401180003F110000000000#128 = false := by decide
/-- V-ILL14: `UPD2` with bit 0 set. -/
theorem test_wf_upd2_reserved :
    CmdWord.reservedZero 0x08000000000000000000000000000001#128 = false := by decide
/-- V-ILL13: `UPD4` with bit 39 set. -/
theorem test_wf_upd4_reserved :
    CmdWord.reservedZero 0x09000000000000000000008000000000#128 = false := by decide
/-- V-ENC14: a `PHDR` with every operand bit set is well formed. -/
theorem test_wf_phdr_all_ones :
    CmdWord.wellFormed 0x0AFFFFFFFFFFFFFFFFFFFFFFFFFFFFFF#128 = true := by decide

/-! ### Decoding: every command's word, written out from R41 and R43 -/

/-- V-ENC1. -/
theorem test_decode_clr : decodeTableWord 128 0x01000000000000000000000000000000 = some .clr := by
  decide
/-- V-ENC2. -/
theorem test_decode_add2 :
    decodeTableWord 128 0x02450000000000000000000000000000 = some (.add2 0x4500) := by decide
/-- V-ENC4. -/
theorem test_decode_add4 :
    decodeTableWord 128 0x03C0A800010000000000000000000000 = some (.add4 0xC0A80001) := by decide
/-- V-ENC6. -/
theorem test_decode_adds :
    decodeTableWord 128 0x040000000C0000000800000000000000 = some (.adds 12 8) := by decide
/-- V-ENC8. -/
theorem test_decode_fin : decodeTableWord 128 0x05000000000000000000000000000000 = some .fin := by
  decide
/-- V-ENC9. -/
theorem test_decode_stf :
    decodeTableWord 128 0x060000000A0000000000000000000000 = some (.stf 10) := by decide
/-- V-ENC10. -/
theorem test_decode_rda : decodeTableWord 128 0x07000000000000000000000000000000 = some .rda := by
  decide
/-- V-ENC11. -/
theorem test_decode_upd2 : decodeTableWord 128 0x08B8610000401100003F110000000000 =
    some (.upd2 0xB861 0x4011 0x3F11) := by decide
/-- V-ENC12. -/
theorem test_decode_upd4 : decodeTableWord 128 0x09B861C0A800010A0000010000000000 =
    some (.upd4 0xB861 0xC0A80001 0x0A000001) := by decide
/-- V-ENC13. -/
theorem test_decode_phdr : decodeTableWord 128 0x0AC0A80001C0A800C706001400000005 =
    some (.phdr 0xC0A80001 0xC0A800C7 6 20 5) := by decide
/-- V-ERR10: decode comes first, a reserved bit makes an out-of-bounds `ADDS` illegal. -/
theorem test_decode_reserved_bit :
    decode 0x04000000000000000500000000000001#128 = .error (.reservedBitSet 0x04) := by decide
/-- V-ILL2. -/
theorem test_decode_unknown_opcode :
    decode 0x0B000000000000000000000000000000#128 = .error (.unknownOpcode 0x0B) := by decide
/-- R49: the opcode travels first. -/
theorem test_decode_bytes : decodeBytes
    [0x02, 0x45, 0, 0, 0, 0, 0, 0, 0, 0, 0, 0, 0, 0, 0, 0] = .ok (.add2 0x4500) := by decide
/-- V-ENC13, the other way. -/
theorem test_encode_phdr :
    encode (.phdr 0xC0A80001 0xC0A800C7 6 20 5) = 0x0AC0A80001C0A800C706001400000005#128 := by
  decide
/-- V-ENC11, the other way. -/
theorem test_encode_upd2 :
    encode (.upd2 0xB861 0x4011 0x3F11) = 0x08B8610000401100003F110000000000#128 := by decide

/-! ### Commands -/

/-- V-ACC16. -/
theorem test_clr : accAfter .clr (loadedState 0x0002DDF0 []) = some 0 := by decide
/-- V-ACC14: the carry out of bit 31 re-enters at bit 0. -/
theorem test_add2_carry : accAfter (.add2 0x0001) (loadedState 0xFFFFFFFF []) = some 1 := by decide
/-- V-ACC9, second command. -/
theorem test_add2_deferred : accAfter (.add2 0xFFFF) (loadedState 0x4500 []) = some 0x000144FF := by
  decide
/-- V-ACC11: a chunk is never added as one 32-bit number. -/
theorem test_add4_halves : accAfter (.add4 0xFFFFFFFF) (loadedState 0 []) = some 0x0001FFFE := by
  decide
/-- V-ACC15: the first half carries, the second does not. -/
theorem test_add4_carry :
    accAfter (.add4 0xFFFFFFFF) (loadedState 0xFFFF0001 []) = some 0x00010000 := by decide
/-- V-ACC3: the odd tail is padded. -/
theorem test_adds_odd :
    accAfter (.adds 0 3) (loadedState 0 [0x01, 0x02, 0x03]) = some 0x00000402 := by decide
/-- V-ERR4: the sum of base and length does not wrap. -/
theorem test_adds_bounds : answer (.adds 0xFFFFFFFF 2) errState = some 0x0200000000 := by decide
/-- V-FIN4: the second fold step. -/
theorem test_fin_second_fold : answer .fin (loadedState 0x0001FFFF []) = some 0x000000FFFE := by
  decide
/-- V-FIN3: no substitution of `0xFFFF` for `0x0000`. -/
theorem test_fin_zero : answer .fin (loadedState 0xFFFFFFFF []) = some 0x0000000000 := by decide
/-- V-STF2: an odd address, high byte first. -/
theorem test_stf_bytes :
    (after (.stf 1) (loadedState 0x0002479C [0xAA, 0xBB, 0xCC, 0xDD])).map
      (fun t => Memory.windowBytes t.fb 0 4) = some [0xAA, 0xB8, 0x61, 0xDD] := by decide
/-- V-STF4: not even the first byte is written. -/
theorem test_stf_bounds :
    (after (.stf 3) (loadedState 0x0002479C [0xAA, 0xBB, 0xCC, 0xDD])).map
      (fun t => (Memory.windowBytes t.fb 0 4, t.responses.map Response.word)) =
      some ([0xAA, 0xBB, 0xCC, 0xDD], [0x0200000000]) := by decide
/-- V-FIN6. -/
theorem test_rda : answer .rda (loadedState 0x0002DDF0 []) = some 0x000002DDF0 := by decide
/-- V-UPD1. -/
theorem test_upd2 : answer (.upd2 0xB861 0x4011 0x3F11) errState = some 0x000000B961 := by decide
/-- V-UPD12: the only operands with `t = 0`. -/
theorem test_upd2_zero_sum : answer (.upd2 0xFFFF 0xFFFF 0x0000) errState = some 0x000000FFFF := by
  decide
/-- V-UPD2. -/
theorem test_upd4 :
    answer (.upd4 0xB861 0xC0A80001 0x0A000001) errState = some 0x0000006F0A := by decide
/-- V-UPD15: the largest `t`. -/
theorem test_upd4_largest : answer (.upd4 0 0 0xFFFFFFFF) errState = some 0x0000000000 := by decide
/-- V-PH1. -/
theorem test_phdr :
    accAfter (.phdr 0xC0A80001 0xC0A800C7 6 20 5) (loadedState 0 []) = some 0x00018237 := by decide
/-- V-PH9: the length sum does not wrap, and nothing is added. -/
theorem test_phdr_too_large :
    (after (.phdr 1 2 6 0xFFFF 0xFFFFFFFF) errState).map
      (fun t => (t.acc, t.responses.map Response.word)) = some (0x1234, [0x0300000000]) := by decide

/-! ### Steps and moves of the host -/

/-- V-ERR9 through a step: the all-zero word is illegal and changes nothing. -/
theorem test_step_illegal : stepped { errState with inputs := [.command 0] } =
    some { errState with responses := [⟨.eIllegal, 0⟩] } := by decide
/-- R140: reset between commands clears `ACC` and keeps the frame. -/
theorem test_step_reset : stepped { errState with inputs := [.reset] } =
    some { errState with acc := 0 } := by decide
/-- S3 line 3: a host write between commands. -/
theorem test_step_poke : stepped { errState with inputs := [.poke 1 [0x0A, 0x00]] } =
    some (loadedState 0x1234 [0x01, 0x0A, 0x00, 0x04]) := by decide
/-- R50 `.fb`: the bytes are the frame and their count is `FB_LEN`. -/
theorem test_step_load : stepped { State.reset with inputs := [.load [0xAB, 0x00]] } =
    some (loadedState 0 [0xAB, 0x00]) := by decide
/-- R20: a host write outside `FB` stops. -/
theorem test_step_poke_outside : stepped { errState with inputs := [.poke 3 [1, 2]] } = none := by
  decide
/-- R141: no `ADDS` before the load. -/
theorem test_step_adds_unloaded :
    stepped { State.reset with inputs := [.command (encode (.adds 0 0))] } = none := by decide
/-- R107: a sequence stops at its first error. -/
theorem test_step_sequence_stops :
    stepped { errState with inputs := [.sequence [encode (.stf 3), encode .fin]] } =
      some { errState with responses := [⟨.eBounds, 0⟩] } := by decide
/-- R51: after an `OK` the rest of a sequence is kept. -/
theorem test_step_sequence_goes_on :
    stepped { errState with inputs := [.sequence [encode .clr, encode .fin], .reset] } =
      some { errState with
        acc := 0, responses := [⟨.ok, 0⟩], inputs := [.sequence [encode .fin], .reset] } := by
  decide
/-- The first step after reset with a word placed for it runs that word's command (log entry 5). -/
theorem test_fetch_word_runs :
    (stepped (State.reset.withFetchWord 128 0x02450000000000000000000000000000)).map (·.acc) =
      some 0x4500 := by decide
/-- The same for a command that reaches the frame: the empty frame is resident, and `STF` is out of its
bounds (R71). -/
theorem test_fetch_word_runs_stf :
    (stepped (State.reset.withFetchWord 128 0x06000000000000000000000000000000)).map
      (fun t => t.responses.map Response.word) = some [0x0200000000] := by decide

/-! ### Compositions and the assembler -/

/-- R101: the expansion of V-IP1. -/
theorem test_expand_ipv4sum : (Pseudo.ipv4sum 0 20).expand =
    .ok [.clr, .adds 0 10, .adds 12 8, .fin] := by decide
/-- R104: the expansion of V-TCP1. -/
theorem test_expand_tcpsum : (Pseudo.tcpsum 0xC0A80001 0xC0A800C7 0 20 20 5).expand =
    .ok [.clr, .phdr 0xC0A80001 0xC0A800C7 6 20 5, .adds 0 16, .adds 18 2, .adds 20 5, .fin] := by
  decide
/-- R101: the assembler refuses `hsize < 12`. -/
theorem test_expand_short : (Pseudo.ipv4sum 0 11).expand = .error .headerTooShort := by decide
/-- R50: the line of V-ENC13, with a comment. -/
theorem test_assemble_phdr :
    assembleLine "PHDR 192.168.0.1, 192.168.0.199, 6, 0x14, 5 ; V-PH1".toList =
      .ok (some (.command 0x0AC0A80001C0A800C706001400000005)) := by decide
/-- R50: the host directives. -/
theorem test_assemble_directives :
    assemble ".fb 01 02 F8\n\n.poke 1, 0A".toList =
      .ok [.load [0x01, 0x02, 0xF8], .poke 1 [0x0A]] := by decide
/-- R51: a pseudo-instruction line. -/
theorem test_assemble_pseudo : assembleLine "IPV4CHK 0, 20".toList =
    .ok (some (.sequence [encode .clr, encode (.adds 0 20), encode .fin])) := by decide
/-- Section 6 on the 18 summed bytes of V-IP1. -/
theorem test_inet : inet (Memory.windowBytes ipState.fb 0 10 ++ Memory.windowBytes ipState.fb 12 8) =
    0xB861 := by decide

/-! ### Witnesses: for each statement with hypotheses, a state and operands that meet them -/

/-- The invariant holds of a loaded frame that lies inside its length. -/
theorem errState_inv : StateInv errState :=
  ⟨by decide, by decide, by decide, by decide, by decide⟩

theorem ipState_inv : StateInv ipState :=
  ⟨by decide, by decide, by decide, by decide, by decide⟩

theorem witness_EncodeOfDecode :
    decode 0x060000000A0000000000000000000000#128 = .ok (.stf 10) := by decide

theorem witness_DecodeAgreesWithOpcodeTable : ∃ r ∈ opcodeTable,
    0x02450000000000000000000000000000#128 &&& r.mask = r.bits := by decide

theorem witness_IllegalWordsAnswerIllegal :
    (CmdWord.opcode 0x0B000000000000000000000000000000#128).toNat = 0x0B ∧
    (CmdWord.opcode 0#128).toNat = 0 ∧
    { errState with inputs := [.command 0x05000000000000000000000000000001#128] }.inputs =
      .command 0x05000000000000000000000000000001#128 :: [] ∧
    matchesTable 0x05000000000000000000000000000001#128 = false := by decide

theorem witness_StepRunsDecodedCommand :
    decode (encode .fin) = .ok .fin ∧
    { errState with inputs := [.command (encode .fin), .reset] }.inputs =
      .command (encode .fin) :: [.reset] ∧ State.reset.inputs = [] := by decide

theorem witness_ResetZeroesAccumulatorOnly :
    { errState with inputs := [.reset] }.inputs = .reset :: [] := by decide

theorem witness_LoadDefinesEveryByte :
    { State.reset with inputs := [.load [0x45, 0x00]] }.inputs = .load [0x45, 0x00] :: [] ∧
    ([0x45, 0x00] : List Byte).length ≤ 2 ^ 32 - 1 := by decide

/-- The last byte of the frame is inside. -/
theorem witness_HostWriteChangesListedBytes :
    StateInv { errState with inputs := [.poke 2 [0x0A, 0x00]] } ∧
    { errState with inputs := [.poke 2 [0x0A, 0x00]] }.loaded = true ∧
    2 + ([0x0A, 0x00] : List Byte).length ≤ errState.fbLen :=
  ⟨⟨by decide, by decide, by decide, by decide, by decide⟩, by decide, by decide⟩

theorem witness_FrameCommandsNeedTheLoad :
    State.reset.loaded = false ∧ errState.loaded = true ∧ needsFrame .fin = false := by decide

theorem witness_EndAroundAddLaws :
    ¬((0xFFFFFFFF : Word) = 0 ∧ (1 : Word) = 0) ∧
    (List.replicate 65536 (0xFFFF : HWord)).length < 65537 :=
  ⟨by decide, by rw [List.length_replicate]; decide⟩

theorem witness_FoldAndFinishLaws : (0x0001FFFF : Word) ≠ 0 := by decide

theorem witness_ClrStartsNewAccumulation :
    ∃ t, exec .clr errState = .next t ∧ errState.acc ≠ 0 ∧ t.acc = 0 := ⟨_, rfl, by decide, rfl⟩

/-- Both clauses meet at `base + len = FB_LEN`. -/
theorem witness_AddsSumsWindowOrAnswersBounds : errState.loaded = true ∧
    (2 : Word).toNat + (2 : Word).toNat ≤ errState.fbLen ∧
    errState.fbLen < (2 : Word).toNat + (3 : Word).toNat := by decide

theorem witness_OddTailIsZeroPadded :
    (∃ t, exec (.adds 0 3) errState = .next t) ∧ (3 : Word).toNat % 2 = 1 ∧
    (loadedState 0 [0x01, 0x02, 0x03, 0x00]).loaded = true ∧
    (4 : Word).toNat = (3 : Word).toNat + 1 ∧
    (0 : Word).toNat + (4 : Word).toNat ≤ (loadedState 0 [0x01, 0x02, 0x03, 0x00]).fbLen ∧
    Memory.read (loadedState 0 [0x01, 0x02, 0x03, 0x00]).fb ((0 : Word).toNat + (3 : Word).toNat) = 0 :=
  ⟨⟨_, rfl⟩, by decide, by decide, by decide, by decide, by decide⟩

/-- Two frames that differ at address 3 only agree on the window `(0, 3)`. -/
theorem witness_AddsReadsOnlyItsWindow :
    (∀ a, (0 : Word).toNat ≤ a → a < (0 : Word).toNat + (3 : Word).toNat →
      Memory.read [(0, 0x01), (1, 0x02), (2, 0x03)] a = Memory.read errState.fb a) ∧
    ∃ t, exec (.adds 0 3) errState = .next t :=
  ⟨by intro a _ h; have h : a < 3 := h; interval_cases a <;> decide, _, rfl⟩

/-- V-LAW1b: the pieces swapped. -/
theorem witness_AccumulationIsOrderIndependent :
    ipState.loaded = true ∧
    (∀ i ∈ [Instr.adds 0 10, .adds 12 8], accumulates i = true) ∧
    (∃ t u, runAll [.adds 0 10, .adds 12 8] ipState = .next t ∧
      runAll [.adds 12 8, .adds 0 10] ipState = .next u) ∧
    ([Instr.adds 0 10, .adds 12 8].flatMap (pieceOf ipState)).Perm
      ([Instr.adds 12 8, .adds 0 10].flatMap (pieceOf ipState)) :=
  ⟨by decide, by decide, ⟨_, _, rfl, rfl⟩, by decide⟩

theorem witness_SliceSplitsAtEvenOffsets : errState.loaded = true ∧ (2 : Word).toNat % 2 = 0 ∧
    (2 : Word).toNat ≤ (4 : Word).toNat ∧ (2 : Word).toNat = (0 : Word).toNat + (2 : Word).toNat ∧
    (2 : Word).toNat = (4 : Word).toNat - (2 : Word).toNat ∧
    (0 : Word).toNat + (4 : Word).toNat ≤ errState.fbLen := by decide

theorem witness_AccumulatedSumIsExact :
    (∀ i ∈ [Instr.adds 0 10, .add2 0xFFFF], accumulates i = true) ∧ ipState.acc = 0 ∧
    (∃ t, runAll [.adds 0 10, .add2 0xFFFF] ipState = .next t) ∧
    0 < exactSum ([Instr.adds 0 10, .add2 0xFFFF].flatMap (pieceOf ipState)) ∧
    exactSum ([Instr.add2 0].flatMap (pieceOf ipState)) = 0 ∧
    ([Instr.adds 0 10, .add2 0xFFFF].flatMap (pieceOf ipState)).length ≤ 65537 :=
  ⟨by decide, by decide, ⟨_, rfl⟩, by decide, by decide, by decide⟩

theorem witness_FinReturnsInternetChecksum : errState.loaded = true ∧
    (∀ i ∈ [Instr.add2 0x0300, .adds 0 2], accumulates i = true) ∧
    ([Instr.add2 0x0300, .adds 0 2].flatMap (pieceOf errState)).Perm
      (wordsOf [0x01, 0x02, 0x03]) := by decide

/-- The largest legal transport length, and a window that ends at `FB_LEN`. -/
theorem witness_AdditionsAreCounted :
    (0 : Word).toNat + (4 : Word).toNat ≤ errState.fbLen ∧
    (20 : HWord).toNat + (65515 : Word).toNat ≤ 65535 ∧
    (∃ t, exec (.add2 1) errState = .next t) ∧ (Instr.add2 1 ≠ .clr) ∧
    accumulates .fin = false :=
  ⟨by decide, by simp, ⟨_, rfl⟩, by decide, by decide⟩

/-- `addr = FB_LEN - 2` is the last legal address, `FB_LEN - 1` is refused. -/
theorem witness_StfStoresChecksumBigEndian : StateInv errState ∧ errState.loaded = true ∧
    (2 : Word).toNat + 2 ≤ errState.fbLen ∧ errState.fbLen < (3 : Word).toNat + 2 :=
  ⟨errState_inv, by decide, by decide, by decide⟩

theorem witness_FinishingKeepsAccumulator :
    (∃ t, exec .fin errState = .next t) ∧ (∃ t, exec (.stf 0) errState = .next t) ∧
    (∃ t, exec .rda errState = .next t) ∧ (∃ u, runAll [.fin, .add2 1] errState = .next u) ∧
    (∃ t, exec (.add2 1) errState = .next t) :=
  ⟨⟨_, rfl⟩, ⟨_, rfl⟩, ⟨_, rfl⟩, ⟨_, rfl⟩, _, rfl⟩

/-- V-FINL2. -/
theorem witness_AddingChecksumVerifies :
    [0x1234, cksum16 (sumWords 0 [0x1234, 0xABCD]), 0xABCD].Perm
      (cksum16 (sumWords 0 [0x1234, 0xABCD]) :: [0x1234, 0xABCD]) := by decide

theorem witness_StoredChecksumIsSeen : StateInv errState ∧
    ∃ t, exec (.stf 2) errState = .next t ∧ t.lastOk = true := ⟨errState_inv, _, rfl, rfl⟩

/-- V-ILL11 and V-ILL12. -/
theorem witness_Upd2AnswersUpdatedChecksum :
    CmdWord.opcode 0x08B8610001401100003F110000000000#128 = 0x08 ∧
    BitVec.extractLsb' 88 16 0x08B8610001401100003F110000000000#128 ≠ 0 ∧
    CmdWord.opcode 0x08B8610000401180003F110000000000#128 = 0x08 ∧
    BitVec.extractLsb' 56 16 0x08B8610000401180003F110000000000#128 ≠ 0 := by decide

/-- Changed data with a non-zero word, and changed data that is all zero. -/
theorem witness_IncrementalUpdateMatchesRecomputation :
    (∃ w ∈ ([0x4500] : List HWord) ++ (0x3F11 :: []), w ≠ 0) ∧
    (∀ w ∈ ([0x0000] : List HWord) ++ (0x0000 :: []), w = 0) ∧
    (∃ w ∈ ([] : List HWord) ++ halves 0x0A000001 ++ [], w ≠ 0) ∧
    (∀ w ∈ ([] : List HWord) ++ halves 0 ++ [], w = 0) :=
  ⟨⟨0x4500, by simp, by decide⟩, by simp, ⟨hiHalf 0x0A000001, by simp [halves], by decide⟩,
    fun w hw => by
      have h : w ∈ [(0 : HWord), 0] := hw
      simpa using h⟩

/-- V-PH3 and V-PH4: the two sides of the limit. -/
theorem witness_PhdrAddsPseudoHeaderOrAnswersTooLarge :
    (20 : HWord).toNat + (65515 : Word).toNat ≤ 65535 ∧
    65535 < (20 : HWord).toNat + (65516 : Word).toNat := ⟨by simp, by simp⟩

theorem witness_ErrorsChangeNoState :
    ∃ t, issue (encode (.adds 0 5)) errState = .next t ∧ t.lastOk = false := ⟨_, rfl, rfl⟩

theorem witness_EachErrorHasItsCause :
    (∃ t, issue 0 errState = .next t ∧ t.responses = ⟨.eIllegal, 0⟩ :: errState.responses) ∧
    (∃ t, issue (encode (.stf 3)) errState = .next t ∧
      t.responses = ⟨.eBounds, 0⟩ :: errState.responses) ∧
    (∃ t, issue (encode (.phdr 1 2 6 20 65516)) errState = .next t ∧
      t.responses = ⟨.eTooLarge, 0⟩ :: errState.responses) :=
  ⟨⟨_, rfl, rfl⟩, ⟨_, rfl, rfl⟩, ⟨_, rfl, rfl⟩⟩

theorem witness_NextCommandIgnoresTheError :
    ∃ t u, issue (encode (.adds 0 5)) errState = .next t ∧ t.lastOk = false ∧
      issue (encode .fin) errState = .next u := ⟨_, _, rfl, rfl, rfl⟩

theorem witness_EveryCommandAnswersOnce :
    mayIssue true (encode (.adds 0 5)) = true ∧ mayIssue false (encode .fin) = true := by decide

theorem witness_AccumulateCommandsKeepTheFrame :
    (∃ t, exec .clr errState = .next t) ∧ accumulates (.adds 0 4) = true ∧
    ∃ t, exec (.adds 0 4) errState = .next t := ⟨⟨_, rfl⟩, by decide, _, rfl⟩

theorem witness_AnsweringCommandsKeepEverything :
    (∃ t, exec .fin errState = .next t) ∧ (∃ t, exec .rda errState = .next t) ∧
    (∃ t, exec (.upd2 1 2 3) errState = .next t) ∧ (∃ t, exec (.upd4 1 2 3) errState = .next t) :=
  ⟨⟨_, rfl⟩, ⟨_, rfl⟩, ⟨_, rfl⟩, _, rfl⟩

/-- A store in bounds and a store that is refused. -/
theorem witness_StfKeepsBytesOutsideItsStore :
    (∃ t, exec (.stf 2) errState = .next t ∧ t.lastOk = true) ∧
    (∃ t, exec (.stf 3) errState = .next t ∧ t.lastOk = false) := ⟨⟨_, rfl, rfl⟩, _, rfl, rfl⟩

theorem witness_OtherCommandsIgnoreTheFrame :
    needsFrame (.phdr 1 2 6 20 5) = false ∧
    ∃ t, exec (.phdr 1 2 6 20 5) State.reset = .next t := ⟨by decide, _, rfl⟩

/-- The header of V-IP1 fills its frame; 12 is the least `hsize`. -/
theorem witness_Ipv4Statements : ipState.loaded = true ∧ StateInv ipState ∧
    12 ≤ (20 : Word).toNat ∧ (0 : Word).toNat + (20 : Word).toNat ≤ ipState.fbLen ∧
    12 ≤ (12 : Word).toNat ∧ (8 : Word).toNat + (12 : Word).toNat ≤ ipState.fbLen :=
  ⟨by decide, ipState_inv, by decide, by decide, by decide, by decide⟩

/-- A stored checksum that is right (`IPV4CHK` answers zero), for the converse of R103. -/
theorem witness_Ipv4CheckVerifiesUpdate :
    ∃ u, runSeq [.clr, .adds 0 20, .fin]
      { ipState with fb := Memory.memWrite ipState.fb 10 2 0xB861 } = .next u ∧
      u.responses.head? = some ⟨.ok, 0⟩ := ⟨_, rfl, by decide⟩

/-- A window shorter than an IPv4 header's first half. -/
theorem witness_Ipv4CheckShortWindow : ipState.loaded = true ∧
    (0 : Word).toNat + (4 : Word).toNat ≤ ipState.fbLen ∧ (4 : Word).toNat < 12 ∧
    (Pseudo.ipv4chk 0 4).expand = .ok [.clr, .adds 0 4, .fin] := by decide

/-- Header of 18 bytes at 0 and payload of 2 bytes at 18. -/
theorem witness_TcpSumIsSegmentChecksum : ipState.loaded = true ∧ StateInv ipState ∧
    18 ≤ (18 : Word).toNat ∧ (0 : Word).toNat + (18 : Word).toNat ≤ ipState.fbLen ∧
    (18 : Word).toNat + (2 : Word).toNat ≤ ipState.fbLen :=
  ⟨by decide, ipState_inv, by decide, by decide, by decide⟩

/-- A frame of 65536 bytes, and a payload inside it that takes the length one past the limit. -/
theorem witness_TcpSumTooLarge :
    { ipState with fbLen := 65536 }.loaded = true ∧ StateInv { ipState with fbLen := 65536 } ∧
    (0 : Word).toNat + (20 : Word).toNat ≤ { ipState with fbLen := 65536 }.fbLen ∧
    (20 : Word).toNat + (65516 : Word).toNat ≤ { ipState with fbLen := 65536 }.fbLen ∧
    65535 < (20 : Word).toNat + (65516 : Word).toNat :=
  ⟨by decide, ⟨by decide, by decide, by decide, by decide, by decide⟩, by decide, by decide, by decide⟩

/-- Header outside `FB`, payload outside `FB`, and a length past the limit. -/
theorem witness_TcpOutsideFrameAnswersError : ipState.loaded = true ∧
    (∃ is, (Pseudo.tcpsum 0 0 1 20 0 0).expand = .ok is ∧ ∃ t, runSeq is ipState = .next t ∧
      t.responses.head? = some ⟨.eBounds, 0⟩) ∧
    ipState.fbLen < (1 : Word).toNat + (20 : Word).toNat ∧
    (∃ is, (Pseudo.tcpsum 0 0 0 20 20 1).expand = .ok is ∧ ∃ t, runSeq is ipState = .next t ∧
      t.responses.head? = some ⟨.eBounds, 0⟩) ∧
    ipState.fbLen < (20 : Word).toNat + (1 : Word).toNat ∧
    (∃ is, (Pseudo.tcpsum 0 0 0 20 20 65516).expand = .ok is ∧ ∃ t, runSeq is ipState = .next t ∧
      t.responses.head? = some ⟨.eTooLarge, 0⟩) ∧
    ipState.fbLen < (20 : Word).toNat + (65516 : Word).toNat :=
  ⟨by decide, ⟨_, rfl, _, rfl, rfl⟩, by decide, ⟨_, rfl, _, rfl, rfl⟩, by decide,
    ⟨_, rfl, _, rfl, rfl⟩, by decide⟩

theorem witness_PseudoStopsAtFirstError :
    (∃ t, runSeq [.clr, .adds 0 20, .fin] ipState = .next t) ∧
    (Pseudo.ipv4chk 0 21).expand = .ok [.clr, .adds 0 21, .fin] ∧
    (∃ t, runSeq [.clr, .adds 0 21, .fin] ipState = .next t ∧ t.lastOk = false) :=
  ⟨⟨_, rfl⟩, by decide, _, rfl, rfl⟩

theorem witness_Ipv4OutsideFrameAnswersBounds : ipState.loaded = true ∧
    (Pseudo.ipv4sum 1 20).expand = .ok [.clr, .adds 1 10, .adds 13 8, .fin] ∧
    ipState.fbLen < (1 : Word).toNat + (20 : Word).toNat := by decide

/-- A frame that reaches the top of the address space, so that the first `ADDS` of a header at
`0xFFFFFFF4` is inside it. -/
def topState : State := { ipState with fbLen := 0xFFFFFFFE }

/-- R101, R107: `base + 12` is `2^32`, outside every `FB`: the second `ADDS` answers `E_BOUNDS`, also for an
`hsize` of 12. -/
theorem test_expand_top_second_adds : ∃ is, (Pseudo.ipv4sum 0xFFFFFFF4 12).expand = .ok is ∧
    ∃ t, runSeq is topState = .next t ∧ t.responses.head? = some ⟨.eBounds, 0⟩ ∧
      t.responses.length = topState.responses.length + 3 := ⟨_, rfl, _, rfl, by decide, by decide⟩

/-- R102, R107: the first `ADDS` answers `E_BOUNDS`. -/
theorem test_expand_top_first_adds : ∃ is, (Pseudo.ipv4upd 0xFFFFFFF6 20).expand = .ok is ∧
    ∃ t, runSeq is topState = .next t ∧ t.responses.head? = some ⟨.eBounds, 0⟩ ∧
      t.responses.length = topState.responses.length + 2 := ⟨_, rfl, _, rfl, by decide, by decide⟩

/-- R104, R107: `PHDR` comes first, and its check is exact in `hsize`. -/
theorem test_expand_top_tcp :
    (∃ is, (Pseudo.tcpsum 0 0 0xFFFFFFF0 20 0 0).expand = .ok is ∧
      ∃ t, runSeq is topState = .next t ∧ t.responses.head? = some ⟨.eBounds, 0⟩) ∧
    (∃ is, (Pseudo.tcpsum 0 0 0xFFFFFFF0 65556 0 0).expand = .ok is ∧
      ∃ t, runSeq is topState = .next t ∧ t.responses.head? = some ⟨.eTooLarge, 0⟩) :=
  ⟨⟨_, rfl, _, rfl, by decide⟩, _, rfl, _, rfl, by decide⟩

theorem witness_SequenceStepsRefineExpansion :
    { errState with inputs := [.sequence ([Instr.clr, .fin].map encode)] }.inputs =
      .sequence ([Instr.clr, .fin].map encode) :: [] ∧ [Instr.clr, .fin] ≠ [] := by decide

theorem witness_StepKeepsInv : StateInv { errState with inputs := [.command (encode (.stf 2))] } ∧
    ∃ t, step { errState with inputs := [.command (encode (.stf 2))] } = .next t :=
  ⟨⟨by decide, by decide, by decide, by decide, by decide⟩, _, rfl⟩

theorem witness_CanonicalMemoriesAreEqual :
    Memory.wf errState.fb = true ∧ Memory.wf (Memory.write errState.fb 0 0x01) = true ∧
    ∀ a, Memory.read errState.fb a = Memory.read (Memory.write errState.fb 0 0x01) a :=
  ⟨by decide, by decide, fun _ => rfl⟩

/-- A host that loads, sums, stores, writes, runs a pseudo-instruction and resets keeps its duties. -/
theorem witness_ObedientHost : State.hostObeys { State.reset with inputs :=
    [.command (encode .clr), .load [0x01, 0x02, 0x03, 0x04], .command (encode (.adds 0 9)),
     .poke 2 [0x00, 0x05], .sequence [encode .clr, encode (.stf 2)], .command 0, .reset] } = true := by
  decide

theorem witness_OnlyLoadChangesFrameLength :
    { errState with inputs := [.reset] }.inputs = .reset :: [] ∧
    (∃ t, step { errState with inputs := [.reset] } = .next t) ∧
    ∀ bytes, HostMove.reset ≠ .load bytes := ⟨rfl, ⟨_, rfl⟩, fun _ h => by cases h⟩

theorem witness_OnlyStoresAndHostWritesChangeFrame :
    ∃ t, step { errState with inputs := [.command (encode (.stf 2))] } = .next t ∧
      Memory.read t.fb 2 ≠ Memory.read errState.fb 2 := ⟨_, rfl, by decide⟩

end Sys2Proof.Tests
end

section
/-!
SUPPORT. The invariant `StateInv`: each operation on the state that keeps it, then each move of the host, then
the step (spec 10_state.md R13, 20_memory.md R24, 30_encoding.md R47).
-/

namespace Sys2Proof.Machine

/-! ### Responses -/

@[simp] theorem Response.wf_ok (v : Word) : Response.wf ⟨.ok, v⟩ = true := rfl

@[simp] theorem Response.wf_zero (st : Status) : Response.wf ⟨st, 0⟩ = true := by simp [Response.wf]

/-! ### The host's moves that can stop -/

theorem loadMove_next {bytes : List Byte} {s t : State} : loadMove bytes s = .next t ↔
    bytes.length ≤ Config.fbLenMax ∧ t = s.loadFrame bytes := by
  unfold loadMove
  split
  · next hlen => simp [hlen, eq_comm]
  · next hlen => simp [hlen]

theorem pokeMove_next {addr : Nat} {bytes : List Byte} {s t : State} : pokeMove addr bytes s = .next t ↔
    s.loaded = true ∧ addr + bytes.length ≤ s.fbLen ∧ t = s.pokeBytes addr bytes := by
  unfold pokeMove
  split
  · next hl =>
    split
    · next hw => simp [hl, windowAdmitted_iff.1 hw, eq_comm]
    · next hw => simp [mt windowAdmitted_iff.2 hw]
  · next hl => simp [hl]

/-- A store is the block write of its big-endian bytes (R22). -/
theorem State.store_eq_pokeBytes (addr n v : Nat) (s : State) :
    s.store addr n v = s.pokeBytes addr (beBytes n v) := rfl

/-! ### Operations keep the invariant -/

section
variable {s : State} (h : StateInv s)
include h

theorem StateInv.with_inputs (moves : List HostMove) : StateInv { s with inputs := moves } :=
  ⟨h.canonical, h.inside, h.lenBound, h.unloadedEmpty, h.errorsCarryZero⟩

theorem StateInv.setAcc (v : Word) : StateInv (s.setAcc v) :=
  ⟨h.canonical, h.inside, h.lenBound, h.unloadedEmpty, h.errorsCarryZero⟩

theorem StateInv.accAdd (ws : List HWord) : StateInv (s.accAdd ws) := h.setAcc _

theorem StateInv.respond (v : Word) : StateInv (s.respond v) :=
  ⟨h.canonical, h.inside, h.lenBound, h.unloadedEmpty,
    List.forall_mem_cons.2 ⟨Response.wf_ok v, h.errorsCarryZero⟩⟩

theorem StateInv.raise (e : CmdError) : StateInv (s.raise e) :=
  ⟨h.canonical, h.inside, h.lenBound, h.unloadedEmpty,
    List.forall_mem_cons.2 ⟨Response.wf_zero e.status, h.errorsCarryZero⟩⟩

theorem StateInv.loadFrame {bytes : List Byte} (hlen : bytes.length ≤ Config.fbLenMax) :
    StateInv (s.loadFrame bytes) where
  canonical := Memory.ofBytes_wf bytes
  inside c hc := by simpa using (Memory.mem_ofBytes hc).2
  lenBound := hlen
  unloadedEmpty hl := by simp at hl
  errorsCarryZero := h.errorsCarryZero

theorem StateInv.pokeBytes {addr : Nat} {bytes : List Byte} (hl : s.loaded = true)
    (hw : addr + bytes.length ≤ s.fbLen) : StateInv (s.pokeBytes addr bytes) where
  canonical := Memory.writeBytes_wf h.canonical
  inside c hc := by
    obtain hc | ⟨-, hc⟩ := Memory.mem_writeBytes hc
    · exact h.inside c hc
    · exact Nat.lt_of_lt_of_le hc hw
  lenBound := h.lenBound
  unloadedEmpty hu := by simp [hl] at hu
  errorsCarryZero := h.errorsCarryZero

theorem StateInv.store {addr n v : Nat} (hl : s.loaded = true) (hw : addr + n ≤ s.fbLen) :
    StateInv (s.store addr n v) := by
  rw [State.store_eq_pokeBytes]
  exact h.pokeBytes hl (by rwa [beBytes_length])

end

/-! ### Commands, moves and the step keep the invariant -/

theorem exec_keeps_inv {i : Instr} {s t : State} (hs : StateInv s) (h : exec i s = .next t) :
    StateInv t := by
  obtain ⟨e, rfl⟩ | ⟨-, rfl⟩ | ⟨-, rfl⟩ | ⟨v, -, rfl⟩ | ⟨addr, -, hw, hl, rfl⟩ := exec_next_cases h
  · exact hs.raise e
  · exact (hs.setAcc 0).respond 0
  · exact (hs.accAdd _).respond 0
  · exact hs.respond v
  · exact (hs.store hl hw).respond _

theorem issue_keeps_inv {w : CmdWord} {s t : State} (hs : StateInv s) (h : issue w s = .next t) :
    StateInv t := by
  obtain ⟨i, -, hi⟩ | ⟨e, -, rfl⟩ := issue_next_cases h
  · exact exec_keeps_inv hs hi
  · exact hs.raise _

theorem issueSequence_keeps_inv {ws : List CmdWord} {s t : State} (hs : StateInv s)
    (h : issueSequence ws s = .next t) : StateInv t := by
  obtain ⟨-, rfl⟩ | ⟨w, rest, u, -, hu, rfl⟩ := issueSequence_next_cases h
  · exact hs
  · have hinv : StateInv u := issue_keeps_inv hs hu
    split
    · exact hinv.with_inputs _
    · exact hinv

theorem takeMove_keeps_inv {m : HostMove} {s t : State} (hs : StateInv s)
    (h : takeMove m s = .next t) : StateInv t := by
  cases m with
  | load bytes =>
    obtain ⟨hlen, rfl⟩ := loadMove_next.1 h
    exact hs.loadFrame hlen
  | poke addr bytes =>
    obtain ⟨hl, hw, rfl⟩ := pokeMove_next.1 h
    exact hs.pokeBytes hl hw
  | command w => exact issue_keeps_inv hs h
  | sequence ws => exact issueSequence_keeps_inv hs h
  | reset =>
    cases h
    exact hs.setAcc 0

/-- Settles O54: a step is idle or takes one move, and every move keeps the invariant. -/
theorem stepKeepsInv : Obligations.StepKeepsInv := by
  intro s t hs h
  cases hin : s.inputs with
  | nil =>
    rw [step_nil hin] at h
    cases h
    exact hs
  | cons m rest =>
    rw [step_cons hin] at h
    exact takeMove_keeps_inv (hs.with_inputs rest) h

end Sys2Proof.Machine
end

section
/-!
SUPPORT. End-around arithmetic (spec 00_scope.md R7, R8 and section 6).

An end-around sum, like a fold, is determined by three facts: it is at most the modulus `2^n - 1`, its residue
is that of the exact value, and it is zero only when the exact value is.
Zero and the modulus have the same residue, and the third fact tells them apart.
-/

namespace Sys2Proof.Machine

open Sys2Proof.Spec

/-- Two end-around results with the same residue and the same zero are equal. -/
theorem eq_of_mod_eq_of_zero_iff {m a b : Nat} (ha : a ≤ m) (hb : b ≤ m) (hmod : a % m = b % m)
    (hzero : a = 0 ↔ b = 0) : a = b := by
  obtain ha | rfl := Nat.lt_or_eq_of_le ha <;> obtain hb | rfl := Nat.lt_or_eq_of_le hb
  · rwa [Nat.mod_eq_of_lt ha, Nat.mod_eq_of_lt hb] at hmod
  · rw [Nat.mod_eq_of_lt ha, Nat.mod_self] at hmod
    omega
  · rw [Nat.mod_eq_of_lt hb, Nat.mod_self] at hmod
    omega
  · rfl

/-! ### The end-around add (R7) -/

theorem ocAdd32_comm (a b : Word) : ocAdd32 a b = ocAdd32 b a := by
  apply BitVec.eq_of_toNat_eq
  rw [ocAdd32_toNat, ocAdd32_toNat, Nat.add_comm]

theorem ocAdd32_toNat_mod (a b : Word) :
    (ocAdd32 a b).toNat % (2 ^ 32 - 1) = (a.toNat + b.toNat) % (2 ^ 32 - 1) := by
  rw [ocAdd32_toNat]
  split <;> omega

theorem ocAdd32_toNat_eq_zero_iff (a b : Word) :
    (ocAdd32 a b).toNat = 0 ↔ a.toNat = 0 ∧ b.toNat = 0 := by
  rw [ocAdd32_toNat]
  split <;> omega

theorem ocAdd32_eq_zero_iff (a b : Word) : ocAdd32 a b = 0 ↔ a = 0 ∧ b = 0 := by
  simpa [BitVec.toNat_eq] using ocAdd32_toNat_eq_zero_iff a b

/-- `65535` divides `2^32 - 1`, so the residue of the checksum survives the add. -/
theorem ocAdd32_toNat_mod_65535 (a b : Word) :
    (ocAdd32 a b).toNat % 65535 = (a.toNat + b.toNat) % 65535 := by
  have hmod := ocAdd32_toNat_mod a b
  omega

/-- The end-around sum is the one word with the sum's residue and the sum's zero. -/
theorem eq_ocAdd32_iff (a b r : Word) : r = ocAdd32 a b ↔
    r.toNat % (2 ^ 32 - 1) = (a.toNat + b.toNat) % (2 ^ 32 - 1) ∧
      (r.toNat = 0 ↔ a.toNat = 0 ∧ b.toNat = 0) := by
  constructor
  · rintro rfl
    exact ⟨ocAdd32_toNat_mod a b, ocAdd32_toNat_eq_zero_iff a b⟩
  · rintro ⟨hmod, hzero⟩
    apply BitVec.eq_of_toNat_eq
    apply eq_of_mod_eq_of_zero_iff (Nat.le_pred_of_lt r.isLt) (Nat.le_pred_of_lt (ocAdd32 a b).isLt)
    · exact hmod.trans (ocAdd32_toNat_mod a b).symm
    · exact hzero.trans (ocAdd32_toNat_eq_zero_iff a b).symm

/-- For a sum that is not of two zeros, the zero of R7 is `0xFFFFFFFF`: the result starts at one. -/
theorem eq_ocAdd32_iff_of_nonzero {a b : Word} (hab : ¬(a = 0 ∧ b = 0)) (r : Word) : r = ocAdd32 a b ↔
    1 ≤ r.toNat ∧ r.toNat % (2 ^ 32 - 1) = (a.toNat + b.toNat) % (2 ^ 32 - 1) := by
  have hnat : ¬(a.toNat = 0 ∧ b.toNat = 0) := by simpa [BitVec.toNat_eq] using hab
  rw [eq_ocAdd32_iff, iff_false_right hnat, and_comm, Nat.one_le_iff_ne_zero]

theorem ocAdd32_assoc (a b c : Word) :
    ocAdd32 (ocAdd32 a b) c = ocAdd32 a (ocAdd32 b c) := by
  rw [eq_ocAdd32_iff, ocAdd32_toNat_mod, ocAdd32_toNat_eq_zero_iff, ocAdd32_toNat_eq_zero_iff,
    ocAdd32_toNat_eq_zero_iff, and_assoc]
  refine ⟨?_, Iff.rfl⟩
  have hab := ocAdd32_toNat_mod a b
  have hbc := ocAdd32_toNat_mod b c
  omega

/-! ### Word sums that never carry -/

theorem exactSum_le (ws : List HWord) : exactSum ws ≤ 65535 * ws.length := by
  induction ws with
  | nil => simp
  | cons w ws ih =>
    have hw := w.isLt
    simp only [exactSum_cons, List.length_cons]
    omega

/-- While the exact sum fits 32 bits no add carries. -/
theorem sumWords_toNat_of_lt {acc : Word} {ws : List HWord} (h : acc.toNat + exactSum ws < 2 ^ 32) :
    (sumWords acc ws).toNat = acc.toNat + exactSum ws := by
  induction ws generalizing acc with
  | nil => simp
  | cons w ws ih =>
    rw [exactSum_cons] at h ⊢
    have hadd : (addWord acc w).toNat = acc.toNat + w.toNat := by
      rw [addWord_toNat, if_neg (by omega)]
    rw [sumWords_cons, ih (by omega)]
    omega

/-- `65537` words sum to at most `65537 * 65535 = 2^32 - 1`. -/
theorem sumWords_zero_toNat {ws : List HWord} (h : ws.length ≤ 65537) :
    (sumWords 0 ws).toNat = exactSum ws := by
  have hle := exactSum_le ws
  have hzero : (0 : Word).toNat = 0 := rfl
  rw [sumWords_toNat_of_lt (by omega)]
  omega

/-- Settles O14: the laws come from the residue and the zero of the sum, the last clause from the bound on the
exact sum of 65537 words. -/
theorem endAroundAddLaws : Obligations.EndAroundAddLaws := by
  refine ⟨ocAdd32_toNat, ocAdd32_comm, ocAdd32_assoc, ocAdd32_eq_zero_iff,
    fun a b r hab => eq_ocAdd32_iff_of_nonzero hab r, ocAdd32_toNat_mod_65535, fun ws w hlen => ?_⟩
  have hlen' : (ws ++ [w]).length ≤ 65537 := by simpa using hlen
  rw [sumWords_zero_toNat hlen', sumWords_zero_toNat hlen.le, exactSum_append, exactSum_cons, exactSum_nil,
    Nat.add_zero]

/-! ### The unbounded fold (R8, section 6) -/

theorem foldRounds_of_lt {fuel x : Nat} (h : x < 2 ^ 16) : foldRounds fuel x = x := by
  cases fuel with
  | zero => rfl
  | succ fuel => rw [foldRounds, if_pos h]

theorem foldRounds_succ_of_le {fuel x : Nat} (h : 2 ^ 16 ≤ x) :
    foldRounds (fuel + 1) x = foldRounds fuel (x % 2 ^ 16 + x / 2 ^ 16) := by
  rw [foldRounds, if_neg h.not_gt]

theorem foldRounds_mod (fuel x : Nat) : foldRounds fuel x % 65535 = x % 65535 := by
  induction fuel generalizing x with
  | zero => rfl
  | succ fuel ih =>
    obtain hx | hx := Nat.lt_or_ge x (2 ^ 16)
    · rw [foldRounds_of_lt hx]
    · rw [foldRounds_succ_of_le hx, ih]
      omega

theorem foldRounds_eq_zero_iff (fuel x : Nat) : foldRounds fuel x = 0 ↔ x = 0 := by
  induction fuel generalizing x with
  | zero => rfl
  | succ fuel ih =>
    obtain hx | hx := Nat.lt_or_ge x (2 ^ 16)
    · rw [foldRounds_of_lt hx]
    · rw [foldRounds_succ_of_le hx, ih]
      omega

/-- Each round of a number above 16 bits makes it smaller, so as many rounds as it exceeds them suffice. -/
theorem foldRounds_lt {fuel x : Nat} (h : x < 2 ^ 16 + fuel) : foldRounds fuel x < 2 ^ 16 := by
  induction fuel generalizing x with
  | zero => exact h
  | succ fuel ih =>
    obtain hx | hx := Nat.lt_or_ge x (2 ^ 16)
    · rwa [foldRounds_of_lt hx]
    · rw [foldRounds_succ_of_le hx]
      exact ih (by omega)

theorem foldNat_lt (x : Nat) : foldNat x < 2 ^ 16 := foldRounds_lt (by omega)

theorem foldNat_mod (x : Nat) : foldNat x % 65535 = x % 65535 := foldRounds_mod x x

theorem foldNat_eq_zero_iff (x : Nat) : foldNat x = 0 ↔ x = 0 := foldRounds_eq_zero_iff x x

/-- Settles O16, by induction on the rounds of the fold. -/
theorem unboundedFoldReachesSixteenBits : Obligations.UnboundedFoldReachesSixteenBits :=
  fun x => ⟨foldNat_lt x, foldNat_mod x, foldNat_eq_zero_iff x⟩

/-- The fold is the one 16-bit number with the residue and the zero of what is folded. -/
theorem eq_foldNat_iff {r x : Nat} (hr : r < 2 ^ 16) :
    r = foldNat x ↔ r % 65535 = x % 65535 ∧ (r = 0 ↔ x = 0) := by
  constructor
  · rintro rfl
    exact ⟨foldNat_mod x, foldNat_eq_zero_iff x⟩
  · rintro ⟨hmod, hzero⟩
    apply eq_of_mod_eq_of_zero_iff (Nat.le_of_lt_succ hr) (Nat.le_of_lt_succ (foldNat_lt x))
    · exact hmod.trans (foldNat_mod x).symm
    · exact hzero.trans (foldNat_eq_zero_iff x).symm

/-! ### The two-step fold and the finish (R8) -/

theorem fold16_toNat_eq_twoStepFold (x : Word) : (fold16 x).toNat = twoStepFold x.toNat := fold16_toNat x

theorem fold16_toNat_mod (x : Word) : (fold16 x).toNat % 65535 = x.toNat % 65535 := by
  rw [fold16_toNat]
  omega

theorem fold16_toNat_eq_zero_iff (x : Word) : (fold16 x).toNat = 0 ↔ x.toNat = 0 := by
  rw [fold16_toNat]
  omega

/-- Two fold steps do for 32 bits what the unbounded fold does. -/
theorem fold16_toNat_eq_foldNat (x : Word) : (fold16 x).toNat = foldNat x.toNat :=
  (eq_foldNat_iff (fold16 x).isLt).2 ⟨fold16_toNat_mod x, fold16_toNat_eq_zero_iff x⟩

theorem fold16_eq_zero_iff (x : Word) : fold16 x = 0 ↔ x = 0 := by
  simpa [BitVec.toNat_eq] using fold16_toNat_eq_zero_iff x

theorem eq_fold16_iff_of_ne_zero {x : Word} (hx : x ≠ 0) (r : HWord) :
    r = fold16 x ↔ 1 ≤ r.toNat ∧ r.toNat % 65535 = x.toNat % 65535 := by
  have hnat : x.toNat ≠ 0 := by simpa [BitVec.toNat_eq] using hx
  rw [BitVec.toNat_eq, fold16_toNat_eq_foldNat, eq_foldNat_iff r.isLt, iff_false_right hnat, and_comm,
    Nat.one_le_iff_ne_zero]

theorem fold16_eq_ones_iff (x : Word) : fold16 x = 0xFFFF ↔ 0 < x.toNat ∧ 65535 ∣ x.toNat := by
  have hones : (0xFFFF : HWord).toNat = 65535 := rfl
  have hlt := (fold16 x).isLt
  have hmod := fold16_toNat_mod x
  have hzero := fold16_toNat_eq_zero_iff x
  rw [BitVec.toNat_eq, hones]
  omega

theorem cksum16_toNat_eq_twoStepFold (x : Word) : (cksum16 x).toNat = 0xFFFF - twoStepFold x.toNat := by
  rw [cksum16_toNat, fold16_toNat_eq_twoStepFold]

theorem cksum16_eq_ones_iff (x : Word) : cksum16 x = 0xFFFF ↔ x = 0 := by
  rw [← fold16_eq_zero_iff, cksum16, BitVec.not_eq_comm]
  rfl

theorem cksum16_eq_zero_iff (x : Word) : cksum16 x = 0 ↔ 0 < x.toNat ∧ 65535 ∣ x.toNat := by
  rw [← fold16_eq_ones_iff, cksum16, BitVec.not_eq_comm]
  rfl

/-- Settles O15: both folds have the residue and the zero of their argument, so they are equal. -/
theorem foldAndFinishLaws : Obligations.FoldAndFinishLaws :=
  ⟨fun x => ⟨fold16_toNat_eq_twoStepFold x, cksum16_toNat_eq_twoStepFold x⟩, fold16_eq_zero_iff,
    fun _ r hx => eq_fold16_iff_of_ne_zero hx r, fold16_eq_ones_iff, fold16_toNat_eq_foldNat,
    cksum16_eq_ones_iff, cksum16_eq_zero_iff⟩

end Sys2Proof.Machine
end

section
/-!
SUPPORT. Canonical memories are determined by their bytes (log entry 2): the first entry is the lowest address
whose byte is not zero, and the rest of the list reads as the whole does with that byte zeroed.
-/

namespace Sys2Proof.Machine

theorem Memory.read_head (x : Nat) (b : Byte) (m : Memory) : Memory.read ((x, b) :: m) x = b := by
  rw [Memory.read_cons, if_pos rfl]

/-- Of two canonical memories with the same bytes, neither begins below the other. -/
theorem Memory.head_le_of_read_eq {lo x y : Nat} {b c : Byte} {m n : Memory}
    (hm : Memory.wfFrom lo ((x, b) :: m) = true) (hn : Memory.wfFrom lo ((y, c) :: n) = true)
    (hread : ∀ a, Memory.read ((x, b) :: m) a = Memory.read ((y, c) :: n) a) : y ≤ x := by
  obtain ⟨-, hb, -⟩ := Memory.wfFrom_cons.1 hm
  obtain ⟨-, hc, hn⟩ := Memory.wfFrom_cons.1 hn
  by_contra hlt
  have hzero : Memory.read ((y, c) :: n) x = 0 :=
    Memory.read_below (Memory.wfFrom_cons.2 ⟨Nat.le_refl y, hc, hn⟩) (by omega)
  exact hb (by rw [← hzero, ← hread x, Memory.read_head])

theorem Memory.read_tail {x : Nat} {m : Memory} (hm : Memory.wfFrom (x + 1) m = true) (b : Byte) (a : Nat) :
    Memory.read m a = if a = x then 0 else Memory.read ((x, b) :: m) a := by
  split
  · next hax => exact Memory.read_below hm (by omega)
  · next hax => rw [Memory.read_cons, if_neg (Ne.symm hax)]

theorem Memory.eq_of_read_eq {lo : Nat} {m n : Memory} (hm : Memory.wfFrom lo m = true)
    (hn : Memory.wfFrom lo n = true) (hread : ∀ a, Memory.read m a = Memory.read n a) : m = n := by
  induction m generalizing lo n with
  | nil =>
    cases n with
    | nil => rfl
    | cons d n =>
      obtain ⟨y, c⟩ := d
      obtain ⟨-, hc, -⟩ := Memory.wfFrom_cons.1 hn
      exact absurd ((Memory.read_head y c n).symm.trans (hread y).symm) hc
  | cons d m ih =>
    obtain ⟨x, b⟩ := d
    obtain ⟨-, hb, hmt⟩ := Memory.wfFrom_cons.1 hm
    cases n with
    | nil => exact absurd ((Memory.read_head x b m).symm.trans (hread x)) hb
    | cons e n =>
      obtain ⟨y, c⟩ := e
      obtain rfl : x = y := Nat.le_antisymm
        (Memory.head_le_of_read_eq hn hm fun a => (hread a).symm) (Memory.head_le_of_read_eq hm hn hread)
      obtain ⟨-, -, hnt⟩ := Memory.wfFrom_cons.1 hn
      obtain rfl : b = c := by rw [← Memory.read_head x b m, hread, Memory.read_head]
      rw [ih hmt hnt fun a => by rw [Memory.read_tail hmt b, hread, ← Memory.read_tail hnt b]]

/-- Settles O55, by induction on the first list: equal bytes give equal heads, and tails with equal bytes. -/
theorem canonicalMemoriesAreEqual : Obligations.CanonicalMemoriesAreEqual :=
  fun _ _ hm hn hread => Memory.eq_of_read_eq hm hn hread

end Sys2Proof.Machine
end

section
/-!
SUPPORT. What each command leaves unchanged (spec 10_state.md R10, 20_memory.md R20): only `STF` writes `FB`,
only `CLR` and the accumulate commands write `ACC`, and every command adds one response.
-/

namespace Sys2Proof.Machine

open Sys2Proof.Spec

theorem exec_answers_once {i : Instr} {s t : State} (h : exec i s = .next t) :
    ∃ q, t.responses = q :: s.responses := by
  obtain ⟨e, rfl⟩ | ⟨-, rfl⟩ | ⟨-, rfl⟩ | ⟨v, -, rfl⟩ | ⟨addr, -, -, -, rfl⟩ := exec_next_cases h <;>
    exact ⟨_, rfl⟩

theorem exec_keeps_acc {i : Instr} {s t : State} (hclr : i ≠ .clr) (hacc : accumulates i = false)
    (h : exec i s = .next t) : t.acc = s.acc := by
  obtain ⟨e, rfl⟩ | ⟨hi, -⟩ | ⟨hi, -⟩ | ⟨v, -, rfl⟩ | ⟨addr, -, -, -, rfl⟩ := exec_next_cases h
  · rfl
  · exact absurd hi hclr
  · simp [hacc] at hi
  · rfl
  · rfl

/-- A command leaves the frame buffer as it is, or is an `STF` in bounds that writes its two bytes (R20, R71). -/
theorem exec_fb_cases {i : Instr} {s t : State} (h : exec i s = .next t) :
    t.fb = s.fb ∨ ∃ addr : Word, i = .stf addr ∧ addr.toNat + 2 ≤ s.fbLen ∧
      t.fb = Memory.memWrite s.fb addr.toNat 2 s.finished.toNat := by
  obtain ⟨e, rfl⟩ | ⟨-, rfl⟩ | ⟨-, rfl⟩ | ⟨v, -, rfl⟩ | ⟨addr, hi, hw, -, rfl⟩ := exec_next_cases h
  · exact .inl rfl
  · exact .inl rfl
  · exact .inl rfl
  · exact .inl rfl
  · exact .inr ⟨addr, hi, hw, rfl⟩

theorem exec_sameFrame {i : Instr} {s t : State} (hstf : ∀ addr, i ≠ .stf addr)
    (h : exec i s = .next t) : sameFrame s t := by
  obtain ⟨hin, hlen, hl⟩ := exec_keeps_launch h
  obtain hfb | ⟨addr, hi, -⟩ := exec_fb_cases h
  · exact ⟨fun a => by rw [hfb], hlen, hl, hin⟩
  · exact absurd hi (hstf addr)

/-- Settles O42: none of these commands is an `STF`. -/
theorem accumulateCommandsKeepTheFrame : Obligations.AccumulateCommandsKeepTheFrame := by
  intro i s t hi h
  have hstf : ∀ addr, i ≠ .stf addr := by
    rintro addr rfl
    simp [accumulates] at hi
  exact ⟨exec_sameFrame hstf h, exec_answers_once h⟩

/-- Settles O43: none of these commands is an `STF`, a `CLR` or an accumulate command. -/
theorem answeringCommandsKeepEverything : Obligations.AnsweringCommandsKeepEverything := by
  intro i s t hi h
  have hkind : (∀ addr, i ≠ .stf addr) ∧ i ≠ .clr ∧ accumulates i = false := by
    obtain rfl | rfl | ⟨hc, old, new, rfl⟩ | ⟨hc, old, new, rfl⟩ := hi <;> simp [accumulates]
  obtain ⟨hstf, hclr, hacc⟩ := hkind
  exact ⟨exec_sameFrame hstf h, exec_keeps_acc hclr hacc h, exec_answers_once h⟩

end Sys2Proof.Machine
end

section
/-!
SUPPORT. What each move of the host does to the state, and what it leaves unchanged (spec 10_state.md R12, R13,
R18, 70_reset_and_hazards.md R140, R141, R143).
-/

namespace Sys2Proof.Machine

/-! ### The load -/

theorem State.hostRead_of_loaded {s : State} (hl : s.loaded = true) (a : Nat) :
    s.hostRead a = if a < s.fbLen then some (Memory.read s.fb a) else none := by
  simp [State.hostRead, hl]

theorem State.hostRead_loadFrame (bytes : List Byte) (s : State) (a : Nat) :
    (s.loadFrame bytes).hostRead a = bytes[a]? := by
  rw [State.hostRead_of_loaded (State.loadFrame_loaded bytes s), State.loadFrame_fbLen,
    State.loadFrame_fb, Memory.read_ofBytes, if_pos (Nat.zero_le a), Nat.sub_zero]
  split
  · next ha => rw [List.getD_eq_getElem _ _ ha, List.getElem?_eq_getElem ha]
  · next ha => rw [List.getElem?_eq_none (by omega)]

/-- Settles O11: the step is the load of the frame, and a loaded frame reads as its bytes. -/
theorem loadDefinesEveryByte : Obligations.LoadDefinesEveryByte := by
  intro s bytes rest hin hlen
  refine ⟨({ s with inputs := rest } : State).loadFrame bytes, ?_,
    State.hostRead_loadFrame bytes _, rfl, rfl, rfl, rfl⟩
  rw [step_cons hin]
  exact loadMove_next.2 ⟨hlen, rfl⟩

/-! ### Moves that keep the frame's length -/

/-- A sequence does what its first word does, and may change the pending moves besides. -/
theorem issueSequence_cons_next {w : CmdWord} {ws : List CmdWord} {s t : State}
    (h : issueSequence (w :: ws) s = .next t) :
    ∃ u moves, issue w s = .next u ∧ t = { u with inputs := moves } := by
  obtain ⟨hnil, -⟩ | ⟨w', rest, u, hws, hu, rfl⟩ := issueSequence_next_cases h
  · cases hnil
  · cases hws
    split
    · exact ⟨u, _, hu, rfl⟩
    · exact ⟨u, u.inputs, hu, rfl⟩

theorem issueSequence_keeps_frameLength {ws : List CmdWord} {s t : State}
    (h : issueSequence ws s = .next t) : t.fbLen = s.fbLen ∧ t.loaded = s.loaded := by
  cases ws with
  | nil => cases h; exact ⟨rfl, rfl⟩
  | cons w ws =>
    obtain ⟨u, moves, hu, rfl⟩ := issueSequence_cons_next h
    exact (issue_keeps_launch hu).2

theorem takeMove_keeps_frameLength {m : HostMove} {s t : State} (hm : ∀ bytes, m ≠ .load bytes)
    (h : takeMove m s = .next t) : t.fbLen = s.fbLen ∧ t.loaded = s.loaded := by
  cases m with
  | load bytes => exact absurd rfl (hm bytes)
  | poke addr bytes =>
    obtain ⟨-, -, rfl⟩ := pokeMove_next.1 h
    exact ⟨rfl, rfl⟩
  | command w => exact (issue_keeps_launch h).2
  | sequence ws => exact issueSequence_keeps_frameLength h
  | reset => cases h; exact ⟨rfl, rfl⟩

/-- Settles O58: the step takes the move, and only a load sets the frame's length. -/
theorem onlyLoadChangesFrameLength : Obligations.OnlyLoadChangesFrameLength := by
  intro s t m rest hin h hm
  rw [step_cons hin] at h
  exact takeMove_keeps_frameLength (s := { s with inputs := rest }) hm h

/-! ### Moves that keep the frame's bytes -/

theorem Memory.read_memWrite_other {m : Memory} {a n v x : Nat} (h : x < a ∨ a + n ≤ x) :
    Memory.read (Memory.memWrite m a n v) x = Memory.read m x :=
  Memory.read_writeBytes_other (by rwa [beBytes_length])

/-- Issuing a word changes a byte of `FB` only when it is an `STF` in bounds that stores there (R20, R71). -/
theorem issue_changes_byte {w : CmdWord} {s t : State} {a : Nat} (h : issue w s = .next t)
    (ha : Memory.read t.fb a ≠ Memory.read s.fb a) :
    ∃ addr : Word, decode w = .ok (.stf addr) ∧ addr.toNat + 2 ≤ s.fbLen ∧
      (a = addr.toNat ∨ a = addr.toNat + 1) := by
  obtain ⟨i, hd, hi⟩ | ⟨e, -, rfl⟩ := issue_next_cases h
  · obtain hfb | ⟨addr, rfl, hw, hfb⟩ := exec_fb_cases hi
    · exact absurd (by rw [hfb]) ha
    · refine ⟨addr, hd, hw, ?_⟩
      by_contra hout
      exact ha (by rw [hfb, Memory.read_memWrite_other (by omega)])
  · exact absurd rfl ha

/-- A move that changes a byte of `FB` is a load, a host write, or issues an `STF` in bounds that stores there. -/
theorem takeMove_changes_byte {m : HostMove} {s t : State} {a : Nat} (h : takeMove m s = .next t)
    (ha : Memory.read t.fb a ≠ Memory.read s.fb a) :
    (∃ bytes, m = .load bytes) ∨ (∃ addr bytes, m = .poke addr bytes) ∨
    (∃ (w : CmdWord) (addr : Word), (m = .command w ∨ ∃ ws, m = .sequence (w :: ws)) ∧
      decode w = .ok (.stf addr) ∧ addr.toNat + 2 ≤ s.fbLen ∧ (a = addr.toNat ∨ a = addr.toNat + 1)) := by
  cases m with
  | load bytes => exact .inl ⟨bytes, rfl⟩
  | poke addr bytes => exact .inr (.inl ⟨addr, bytes, rfl⟩)
  | command w =>
    obtain ⟨addr, hstf⟩ := issue_changes_byte h ha
    exact .inr (.inr ⟨w, addr, .inl rfl, hstf⟩)
  | sequence ws =>
    cases ws with
    | nil => cases h; exact absurd rfl ha
    | cons w ws =>
      obtain ⟨u, moves, hu, rfl⟩ := issueSequence_cons_next h
      obtain ⟨addr, hstf⟩ := issue_changes_byte hu ha
      exact .inr (.inr ⟨w, addr, .inr ⟨ws, rfl⟩, hstf⟩)
  | reset => cases h; exact absurd rfl ha

/-- Settles O59: the step takes the move, and a move that issues words changes a byte only by an `STF`. -/
theorem onlyStoresAndHostWritesChangeFrame : Obligations.OnlyStoresAndHostWritesChangeFrame := by
  intro s t m rest a hin h ha
  rw [step_cons hin] at h
  exact takeMove_changes_byte (s := { s with inputs := rest }) h ha

/-! ### Commands and the reset as steps, and the reset state -/

/-- Settles O9: the step issues the word, and issuing a legal word runs its command. -/
theorem stepRunsDecodedCommand : Obligations.StepRunsDecodedCommand :=
  ⟨fun _ _ _ _ hd hin => (step_cons hin).trans (issue_ok hd), fun _ => step_nil⟩

/-- Settles O10: the step is the reset move, which sets `ACC` only. -/
theorem resetZeroesAccumulatorOnly : Obligations.ResetZeroesAccumulatorOnly :=
  ⟨rfl, fun _ _ => step_cons⟩

/-- Settles O53: the reset state holds an empty frame buffer and no response. -/
theorem invHoldsAtReset : Obligations.InvHoldsAtReset where
  canonical := rfl
  inside _ hc := absurd hc List.not_mem_nil
  lenBound := Nat.zero_le _
  unloadedEmpty _ := ⟨rfl, rfl⟩
  errorsCarryZero _ hq := absurd hq List.not_mem_nil

end Sys2Proof.Machine
end

section
/-!
SUPPORT. The frame buffer as the host, `ADDS` and `STF` see it (spec 20_memory.md): a host write or a store changes
the bytes it lists, `ADDS` depends on the bytes of its window, and no other command depends on the frame.
-/

namespace Sys2Proof.Machine

/-! ### The host write -/

/-- A host write inside `FB` is read back, and every other address reads as before (R29, R31). -/
theorem State.hostRead_pokeBytes {s : State} (hs : StateInv s) (hl : s.loaded = true) {addr : Nat}
    {bytes : List Byte} (hw : addr + bytes.length ≤ s.fbLen) (a : Nat) :
    (s.pokeBytes addr bytes).hostRead a =
      if addr ≤ a ∧ a < addr + bytes.length then bytes[a - addr]? else s.hostRead a := by
  have hl' : (s.pokeBytes addr bytes).loaded = true := hl
  rw [State.hostRead_of_loaded hl', State.hostRead_of_loaded hl, State.pokeBytes_fbLen, State.pokeBytes_fb,
    Memory.read_writeBytes hs.canonical]
  split
  · next hlt =>
    split
    · next hin =>
      have hidx : a - addr < bytes.length := by omega
      rw [List.getD_eq_getElem _ _ hidx, List.getElem?_eq_getElem hidx]
    · rfl
  · next hge => rw [if_neg (by omega)]

/-- Settles O12: the step is the block write of the bytes, and a host read after it sees exactly them changed. -/
theorem hostWriteChangesListedBytes : Obligations.HostWriteChangesListedBytes := by
  intro s addr bytes rest hs hin hl hw
  refine ⟨({ s with inputs := rest } : State).pokeBytes addr bytes, ?_,
    State.hostRead_pokeBytes (hs.with_inputs rest) hl hw, rfl, rfl, rfl, rfl⟩
  rw [step_cons hin]
  exact pokeMove_next.2 ⟨hl, hw, rfl⟩

/-! ### The window of `ADDS` -/

/-- `ADDS` gives the same response and `ACC` over every frame that agrees with its own on the window (R26). -/
theorem exec_adds_congr {base len : Word} {s t : State} {m : Memory}
    (hm : ∀ a, base.toNat ≤ a → a < base.toNat + len.toNat → Memory.read m a = Memory.read s.fb a)
    (h : exec (.adds base len) s = .next t) :
    exec (.adds base len) { s with fb := m } = .next { t with fb := m } := by
  obtain ⟨hl, ⟨hw, rfl⟩ | ⟨hw, rfl⟩⟩ := exec_adds_next.1 h
  · rw [← Memory.windowWords_congr hm]
    exact exec_adds_inside (s := { s with fb := m }) hl hw
  · exact exec_adds_outside hl hw

/-- Settles O22: the words of a window depend on no byte outside it. -/
theorem addsReadsOnlyItsWindow : Obligations.AddsReadsOnlyItsWindow := fun _ _ _ _ _ => exec_adds_congr

theorem Memory.fullWords_succ (m : Memory) (a n : Nat) : Memory.fullWords m a (n + 1) =
    Memory.fullWords m a n ++ [be16 (Memory.read m (a + 2 * n)) (Memory.read m (a + 2 * n + 1))] := by
  induction n generalizing a with
  | zero => simp [Memory.fullWords, Memory.memRead_two]
  | succ n ih =>
    rw [Memory.fullWords, ih (a + 2), Memory.fullWords, List.cons_append,
      show a + 2 + 2 * n = a + 2 * (n + 1) by omega]

/-- An odd window adds the same words when a zero byte after it is taken in (R25). -/
theorem Memory.windowWords_succ_of_zero {m : Memory} {base len : Nat} (hodd : len % 2 = 1)
    (hzero : Memory.read m (base + len) = 0) :
    Memory.windowWords m base (len + 1) = Memory.windowWords m base len := by
  obtain ⟨n, rfl⟩ : ∃ n, len = 2 * n + 1 := ⟨len / 2, by omega⟩
  have hlong : Memory.windowWords m base (2 * n + 1 + 1) = Memory.fullWords m base (n + 1) := by
    rw [Memory.windowWords, Memory.tailWord, if_neg (by omega), List.append_nil,
      show (2 * n + 1 + 1) / 2 = n + 1 by omega]
  have hshort : Memory.windowWords m base (2 * n + 1) =
      Memory.fullWords m base n ++ [be16 (Memory.read m (base + 2 * n)) 0] := by
    rw [Memory.windowWords, Memory.tailWord, if_pos hodd, Memory.memRead_one,
      show (2 * n + 1) / 2 = n by omega]
    rfl
  rw [hlong, hshort, Memory.fullWords_succ, show base + 2 * n + 1 = base + (2 * n + 1) by omega, hzero]

/-- Settles O21: the byte after the window is outside it, and taking it in as zero adds the same words. -/
theorem oddTailIsZeroPadded : Obligations.OddTailIsZeroPadded := by
  constructor
  · intro base len s t b _ h
    exact exec_adds_congr (fun a _ ha => Memory.read_write_other (by omega)) h
  · intro base len len' s hl hodd hlen hw hzero
    refine ⟨_, exec_adds_inside hl (by omega), ?_⟩
    rw [exec_adds_inside hl hw, hlen, Memory.windowWords_succ_of_zero hodd hzero]

/-! ### The store of `STF` -/

/-- The two bytes a store of a word writes, the high byte first (R22). -/
theorem beBytes_two_toNat (c : HWord) : beBytes 2 c.toNat = [c.extractLsb' 8 8, c.extractLsb' 0 8] := by
  rw [beBytes_two, BitVec.extractLsb', BitVec.extractLsb', Nat.shiftRight_zero, Nat.shiftRight_eq_div_pow]

theorem be16_extractLsb' (c : HWord) : be16 (c.extractLsb' 8 8) (c.extractLsb' 0 8) = c := by
  apply BitVec.eq_of_toNat_eq
  have hc := c.isLt
  rw [be16_toNat, BitVec.extractLsb'_toNat, BitVec.extractLsb'_toNat, Nat.shiftRight_zero,
    Nat.shiftRight_eq_div_pow]
  omega

section
variable {m : Memory} (hm : Memory.wf m = true) (a : Nat) (c : HWord)
include hm

theorem Memory.read_memWrite_high : Memory.read (Memory.memWrite m a 2 c.toNat) a = c.extractLsb' 8 8 := by
  rw [Memory.memWrite, beBytes_two_toNat, Memory.read_writeBytes hm, if_pos (by simp), Nat.sub_self]
  rfl

theorem Memory.read_memWrite_low :
    Memory.read (Memory.memWrite m a 2 c.toNat) (a + 1) = c.extractLsb' 0 8 := by
  rw [Memory.memWrite, beBytes_two_toNat, Memory.read_writeBytes hm, if_pos (by simp), Nat.add_sub_cancel_left]
  rfl

/-- The word that `ADDS` forms at a stored word's address is the word stored (R22, R29). -/
theorem Memory.windowWords_memWrite : Memory.windowWords (Memory.memWrite m a 2 c.toNat) a 2 = [c] := by
  have hword : Memory.windowWords (Memory.memWrite m a 2 c.toNat) a 2 =
      [BitVec.ofNat 16 (Memory.memRead (Memory.memWrite m a 2 c.toNat) a 2)] := rfl
  rw [hword, Memory.memRead_two, Memory.read_memWrite_high hm, Memory.read_memWrite_low hm, be16_extractLsb']

end

/-- An `STF` that answers `OK` has a loaded frame around its two bytes, and has stored the finished value there. -/
theorem exec_stf_ok {addr : Word} {s t : State} (h : exec (.stf addr) s = .next t) (hok : t.lastOk = true) :
    s.loaded = true ∧ addr.toNat + 2 ≤ s.fbLen ∧
      t.fb = Memory.memWrite s.fb addr.toNat 2 (cksum16 s.acc).toNat := by
  obtain ⟨hl, ⟨hw, rfl⟩ | ⟨-, rfl⟩⟩ := exec_stf_next.1 h
  · exact ⟨hl, hw, rfl⟩
  · simp at hok

/-- Settles O33: both the host and `ADDS` read the two bytes of the store back. -/
theorem storedChecksumIsSeen : Obligations.StoredChecksumIsSeen := by
  intro s t addr hs h hok
  obtain ⟨hl, hw, hfb⟩ := exec_stf_ok h hok
  obtain ⟨-, hlen, hloaded⟩ := exec_keeps_launch h
  have hacc : t.acc = s.acc := exec_keeps_acc (by simp) rfl h
  rw [← hlen] at hw
  rw [← hloaded] at hl
  refine ⟨?_, ?_, _, exec_adds_inside hl hw, ?_⟩
  · rw [State.hostRead_of_loaded hl, if_pos (by omega), hfb, Memory.read_memWrite_high hs.canonical]
  · rw [State.hostRead_of_loaded hl, if_pos (by omega), hfb, Memory.read_memWrite_low hs.canonical]
  · have hwords : Memory.windowWords t.fb addr.toNat (2 : Word).toNat = [cksum16 s.acc] := by
      rw [hfb]
      exact Memory.windowWords_memWrite hs.canonical _ _
    rw [hwords, State.respond_acc, State.accAdd_acc, hacc]
    rfl

/-- Settles O44: `STF` either stores its two bytes and answers `OK`, or changes no byte. -/
theorem stfKeepsBytesOutsideItsStore : Obligations.StfKeepsBytesOutsideItsStore := by
  intro addr s t h
  obtain ⟨hin, hlen, hl⟩ := exec_keeps_launch h
  have hacc : t.acc = s.acc := exec_keeps_acc (by simp) rfl h
  refine ⟨?_, ?_, hacc, hlen, hl, hin, exec_answers_once h⟩
  · intro a hhigh hlow
    obtain ⟨-, ⟨-, rfl⟩ | ⟨-, rfl⟩⟩ := exec_stf_next.1 h
    · exact Memory.read_memWrite_other (by omega)
    · rfl
  · intro herr a
    obtain ⟨-, ⟨-, rfl⟩ | ⟨-, rfl⟩⟩ := exec_stf_next.1 h
    · simp at herr
    · rfl

/-! ### Commands that do not reach the frame buffer -/

/-- Settles O45: the meanings of these commands mention neither `FB` nor its length nor the load, and `PHDR` checks
its own operands only. -/
theorem otherCommandsIgnoreTheFrame : Obligations.OtherCommandsIgnoreTheFrame := by
  intro i s t m n b hframe h
  cases i
  case adds | stf => simp [needsFrame] at hframe
  case phdr src dst proto hlen plen =>
    by_cases hsum : hlen.toNat + plen.toNat ≤ 65535
    · rw [exec_phdr_ok hsum] at h ⊢
      cases h
      rfl
    · rw [exec_phdr_tooLarge (by omega)] at h ⊢
      cases h
      rfl
  case clr | add2 | add4 | fin | rda | upd2 | upd4 => cases h; rfl

end Sys2Proof.Machine
end

section
/-!
SUPPORT. The decoder against the encoder (spec 30_encoding.md R40 to R45).

`Instr.Fits i w` says of a word what R41 says of the command `i`: its opcode, each operand in its field, and zero in
every reserved bit.
The encoded word of `i` fits `i`, a word decodes to `i` exactly when it fits `i`, and the fields of a word that fits
`i` add up to the value of R41's row; the two round trips follow from these three facts.
-/

namespace Sys2Proof

/-! ### Fields as naturals, and the two spellings of the reserved condition -/

theorem CmdWord.field_toNat (w : CmdWord) (lo n : Nat) :
    (CmdWord.field w lo n).toNat = w.toNat / 2 ^ lo % 2 ^ n := by
  rw [CmdWord.field, BitVec.extractLsb'_toNat, Nat.shiftRight_eq_div_pow]

theorem CmdWord.opcode_toNat (w : CmdWord) : (CmdWord.opcode w).toNat = w.toNat / 2 ^ 120 := by
  have hw := w.isLt
  rw [CmdWord.opcode_eq_field, CmdWord.field_toNat]
  omega

theorem CmdWord.lowBitsZero_iff (w : CmdWord) (n : Nat) :
    CmdWord.lowBitsZero w n = true ↔ CmdWord.field w 0 n = 0 := by
  rw [← BitVec.toNat_inj, CmdWord.field_toNat]
  simp [CmdWord.lowBitsZero]

theorem CmdWord.zeroBelow_eq_lowBitsZero (w : CmdWord) (n : Nat) :
    CmdWord.zeroBelow w n = CmdWord.lowBitsZero w n := by
  rw [Bool.eq_iff_iff, CmdWord.lowBitsZero_iff, CmdWord.zeroBelow, beq_iff_eq]

theorem CmdWord.opcodeDefined_iff (w : CmdWord) : CmdWord.opcodeDefined w = true ↔
    w.opcode = 0x01 ∨ w.opcode = 0x02 ∨ w.opcode = 0x03 ∨ w.opcode = 0x04 ∨ w.opcode = 0x05 ∨
      w.opcode = 0x06 ∨ w.opcode = 0x07 ∨ w.opcode = 0x08 ∨ w.opcode = 0x09 ∨ w.opcode = 0x0A := by
  simp only [CmdWord.opcodeDefined, Bool.and_eq_true, decide_eq_true_eq, ← BitVec.toNat_inj,
    BitVec.reduceToNat]
  omega

/-! ### What R41 says of the word of a command -/

/-- Each operand of the command stands in its field of the word (R41). -/
def Instr.OperandsIn (w : CmdWord) : Instr → Prop
  | .clr => True
  | .add2 imm16 => w.field 104 16 = imm16
  | .add4 imm32 => w.field 88 32 = imm32
  | .adds base len => w.field 88 32 = base ∧ w.field 56 32 = len
  | .fin => True
  | .stf addr => w.field 88 32 = addr
  | .rda => True
  | .upd2 hc old new => w.field 104 16 = hc ∧ w.field 72 16 = old ∧ w.field 40 16 = new
  | .upd4 hc old new => w.field 104 16 = hc ∧ w.field 72 32 = old ∧ w.field 40 32 = new
  | .phdr src dst proto hlen plen =>
      w.field 88 32 = src ∧ w.field 56 32 = dst ∧ w.field 48 8 = proto ∧ w.field 32 16 = hlen ∧
        w.field 0 32 = plen

/-- The word is laid out as R41 says for the command. -/
structure Instr.Fits (i : Instr) (w : CmdWord) : Prop where
  opcode : w.opcode = i.opcode
  operands : i.OperandsIn w
  reserved : w.reservedZero = true

/-- The reserved fields of the format of an opcode, each by its lowest bit and its width (R41). -/
def reservedFields (op : Byte) : List (Nat × Nat) :=
  match op.toNat with
  | 0x01 => [(0, 120)]
  | 0x02 => [(0, 104)]
  | 0x03 => [(0, 88)]
  | 0x04 => [(0, 56)]
  | 0x05 => [(0, 120)]
  | 0x06 => [(0, 88)]
  | 0x07 => [(0, 120)]
  | 0x08 => [(0, 40), (88, 16), (56, 16)]
  | 0x09 => [(0, 40)]
  | _ => []

theorem CmdWord.reservedZero_iff (w : CmdWord) :
    w.reservedZero = true ↔ ∀ f ∈ reservedFields w.opcode, w.field f.1 f.2 = 0 := by
  unfold CmdWord.reservedZero reservedFields
  split <;> simp [*, CmdWord.lowBitsZero_iff, CmdWord.field, and_assoc]

/-- The opcode and each operand, at the weight of its field's low bit (R41). -/
def Instr.wordValue : Instr → Nat
  | .clr => 0x01 * 2 ^ 120
  | .add2 imm16 => 0x02 * 2 ^ 120 + imm16.toNat * 2 ^ 104
  | .add4 imm32 => 0x03 * 2 ^ 120 + imm32.toNat * 2 ^ 88
  | .adds base len => 0x04 * 2 ^ 120 + base.toNat * 2 ^ 88 + len.toNat * 2 ^ 56
  | .fin => 0x05 * 2 ^ 120
  | .stf addr => 0x06 * 2 ^ 120 + addr.toNat * 2 ^ 88
  | .rda => 0x07 * 2 ^ 120
  | .upd2 hc old new =>
      0x08 * 2 ^ 120 + hc.toNat * 2 ^ 104 + old.toNat * 2 ^ 72 + new.toNat * 2 ^ 40
  | .upd4 hc old new =>
      0x09 * 2 ^ 120 + hc.toNat * 2 ^ 104 + old.toNat * 2 ^ 72 + new.toNat * 2 ^ 40
  | .phdr src dst proto hlen plen =>
      0x0A * 2 ^ 120 + src.toNat * 2 ^ 88 + dst.toNat * 2 ^ 56 + proto.toNat * 2 ^ 48 +
        hlen.toNat * 2 ^ 32 + plen.toNat

/-! ### The encoded word fits its command -/

theorem opcode_encode (i : Instr) : CmdWord.opcode (encode i) = i.opcode := by
  cases i with
  | clr => exact Laws.EncodedOpcode.clr
  | add2 imm16 => exact Laws.EncodedOpcode.add2 imm16
  | add4 imm32 => exact Laws.EncodedOpcode.add4 imm32
  | adds base len => exact Laws.EncodedOpcode.adds base len
  | fin => exact Laws.EncodedOpcode.fin
  | stf addr => exact Laws.EncodedOpcode.stf addr
  | rda => exact Laws.EncodedOpcode.rda
  | upd2 hc old new => exact Laws.EncodedOpcode.upd2 hc old new
  | upd4 hc old new => exact Laws.EncodedOpcode.upd4 hc old new
  | phdr src dst proto hlen plen => exact Laws.EncodedOpcode.phdr src dst proto hlen plen

/-- An operand's field reads the value placed in it, and none of the values placed apart from it. -/
theorem operandsIn_encode (i : Instr) : i.OperandsIn (encode i) := by
  cases i <;> simp (disch := omega) [Instr.OperandsIn, encode, Instr.operandBits, CmdWord.field_or,
    CmdWord.field_place_same, CmdWord.field_place_apart]

/-- A reserved field reads zero: every value is placed apart from it. -/
theorem reservedZero_encode (i : Instr) : CmdWord.reservedZero (encode i) = true := by
  rw [CmdWord.reservedZero_iff, opcode_encode]
  cases i <;> simp (disch := omega) [reservedFields, Instr.opcode, encode, Instr.operandBits, CmdWord.field_or,
    CmdWord.field_place_apart]

theorem encode_fits (i : Instr) : i.Fits (encode i) :=
  ⟨opcode_encode i, operandsIn_encode i, reservedZero_encode i⟩

/-! ### A word that fits a command has the value of the command's row -/

/-- The opcode, the operands and the reserved fields cover the word, so it is the sum of their values. -/
theorem Instr.Fits.toNat_eq {i : Instr} {w : CmdWord} (h : i.Fits w) : w.toNat = i.wordValue := by
  obtain ⟨hop, hin, hzero⟩ := h
  rw [CmdWord.reservedZero_iff, hop] at hzero
  have hw := w.isLt
  have hval : w.toNat / 2 ^ 120 = i.opcode.toNat := by rw [← CmdWord.opcode_toNat, hop]
  cases i <;> simp [reservedFields, Instr.opcode, Instr.OperandsIn, ← BitVec.toNat_inj, CmdWord.field_toNat,
    Instr.wordValue] at hval hin hzero ⊢ <;> omega

/-- Settles O2: the encoded word fits its command, so it has the value of the command's row. -/
theorem fieldsStandAtFormatPositions : Obligations.FieldsStandAtFormatPositions :=
  have value (i : Instr) : (encode i).toNat = i.wordValue := (encode_fits i).toNat_eq
  ⟨value .clr, fun _ => value (.add2 _), fun _ => value (.add4 _), fun _ _ => value (.adds _ _), value .fin,
    fun _ => value (.stf _), value .rda, fun _ _ _ => value (.upd2 _ _ _), fun _ _ _ => value (.upd4 _ _ _),
    fun _ _ _ _ _ => value (.phdr _ _ _ _ _)⟩

/-! ### The decoder -/

/-- A word with a command's opcode and operands is that command, unless a reserved bit is set (R44). -/
theorem decode_eq_acceptIf {w : CmdWord} {i : Instr} (hop : w.opcode = i.opcode) (hin : i.OperandsIn w) :
    decode w = acceptIf w.reservedZero w i := by
  cases i <;> simp_all [decode, Instr.opcode, Instr.OperandsIn, CmdWord.reservedZero,
    CmdWord.zeroBelow_eq_lowBitsZero, acceptIf, CmdWord.field]

theorem decode_of_opcode_undefined {w : CmdWord} (h : w.opcodeDefined = false) :
    decode w = .error (.unknownOpcode w.opcode) := by
  have hne := mt (CmdWord.opcodeDefined_iff w).2 (by simp [h])
  simp only [not_or] at hne
  simp only [decode, hne, if_false]

/-- Every defined opcode is that of a command with the operands read from the word. -/
theorem exists_operandsIn {w : CmdWord} (h : w.opcodeDefined = true) :
    ∃ i : Instr, w.opcode = i.opcode ∧ i.OperandsIn w := by
  obtain h | h | h | h | h | h | h | h | h | h := (CmdWord.opcodeDefined_iff w).1 h
  · exact ⟨.clr, h, trivial⟩
  · exact ⟨.add2 _, h, rfl⟩
  · exact ⟨.add4 _, h, rfl⟩
  · exact ⟨.adds _ _, h, rfl, rfl⟩
  · exact ⟨.fin, h, trivial⟩
  · exact ⟨.stf _, h, rfl⟩
  · exact ⟨.rda, h, trivial⟩
  · exact ⟨.upd2 _ _ _, h, rfl, rfl, rfl⟩
  · exact ⟨.upd4 _ _ _, h, rfl, rfl, rfl⟩
  · exact ⟨.phdr _ _ _ _ _, h, rfl, rfl, rfl, rfl, rfl⟩

theorem opcodeDefined_of_decode {w : CmdWord} {i : Instr} (h : decode w = .ok i) : w.opcodeDefined = true := by
  cases hdef : w.opcodeDefined with
  | true => rfl
  | false =>
    rw [decode_of_opcode_undefined hdef] at h
    cases h

theorem decode_eq_ok_iff {w : CmdWord} {i : Instr} : decode w = .ok i ↔ i.Fits w := by
  constructor
  · intro h
    obtain ⟨j, hop, hin⟩ := exists_operandsIn (opcodeDefined_of_decode h)
    rw [decode_eq_acceptIf hop hin] at h
    obtain ⟨hzero, rfl⟩ := acceptIf_ok.1 h
    exact ⟨hop, hin, hzero⟩
  · rintro ⟨hop, hin, hzero⟩
    rw [decode_eq_acceptIf hop hin]
    exact acceptIf_ok.2 ⟨hzero, rfl⟩

/-- The words that decode are the well-formed ones (R45). -/
theorem wellFormed_iff_exists_decode (w : CmdWord) : w.wellFormed = true ↔ ∃ i, decode w = .ok i := by
  rw [CmdWord.wellFormed, Bool.and_eq_true]
  constructor
  · rintro ⟨hdef, hzero⟩
    obtain ⟨i, hop, hin⟩ := exists_operandsIn hdef
    exact ⟨i, decode_eq_ok_iff.2 ⟨hop, hin, hzero⟩⟩
  · rintro ⟨i, hi⟩
    exact ⟨opcodeDefined_of_decode hi, (decode_eq_ok_iff.1 hi).reserved⟩

/-- Settles O3: the encoded word fits its command. -/
theorem decodeOfEncode : Obligations.DecodeOfEncode := fun i => decode_eq_ok_iff.2 (encode_fits i)

/-- Settles O4: the word and the encoded word both fit the command, so they have the same value. -/
theorem encodeOfDecode : Obligations.EncodeOfDecode := fun _ i h =>
  BitVec.eq_of_toNat_eq ((encode_fits i).toNat_eq.trans (decode_eq_ok_iff.1 h).toNat_eq.symm)

/-- Settles O1: the ten words are closed terms, and the decoder runs on each. -/
theorem specWordsDecode : Obligations.SpecWordsDecode := by
  unfold Obligations.SpecWordsDecode
  decide

end Sys2Proof
end

section
/-!
SUPPORT. The opcode table against the decoder (spec 30_encoding.md R43 to R45).

A row's mask is ones over the opcode and over the reserved fields of the row's format, so a word selects the row
exactly when it has the row's opcode and reads zero in those fields.
-/

namespace Sys2Proof

open Sys2Proof.Machine

/-! ### Words under a mask -/

@[simp] theorem placeField_zero (n lo : Nat) : placeField (0 : BitVec n) lo = 0 := by
  simp [placeField]

theorem placeField_inj {n lo : Nat} (h : lo + n ≤ 128) {u v : BitVec n} :
    placeField u lo = placeField v lo ↔ u = v := by
  constructor
  · intro heq
    rw [← CmdWord.field_place_same u lo h, heq, CmdWord.field_place_same v lo h]
  · rintro rfl
    rfl

/-- A mask of ones over one field keeps that field and clears the rest. -/
theorem and_placeField_allOnes (w : CmdWord) (lo n : Nat) :
    w &&& placeField (BitVec.allOnes n) lo = placeField (w.field lo n) lo := by
  apply BitVec.eq_of_getLsbD_eq
  intro k hk
  rw [BitVec.getLsbD_and, getLsbD_placeField, getLsbD_placeField, CmdWord.getLsbD_field, BitVec.getLsbD_allOnes]
  by_cases hlo : lo ≤ k
  · simp [hk, hlo, Bool.and_comm]
  · simp [hlo]

/-- Where the match is zero, a mask's further part asks the word to be zero there. -/
theorem and_or_eq_iff {w m₁ m₂ b : CmdWord} (hb : b &&& m₂ = 0) :
    w &&& (m₁ ||| m₂) = b ↔ w &&& m₁ = b ∧ w &&& m₂ = 0 := by
  have hsplit : w &&& (m₁ ||| m₂) = (w &&& m₁) ||| (w &&& m₂) := BitVec.and_or_distrib_left
  have habsorb : (m₁ ||| m₂) &&& m₂ = m₂ := by
    apply BitVec.eq_of_getLsbD_eq
    simp +contextual
  constructor
  · intro h
    have hzero : w &&& m₂ = 0 := by rw [← hb, ← h, BitVec.and_assoc, habsorb]
    rw [hsplit, hzero] at h
    exact ⟨by simpa using h, hzero⟩
  · rintro ⟨h₁, h₂⟩
    rw [hsplit, h₁, h₂]
    exact BitVec.or_zero

theorem and_opcode_mask_eq_iff {op : Byte} (w : CmdWord) :
    w &&& placeField (BitVec.allOnes 8) 120 = placeField op 120 ↔ w.opcode = op := by
  rw [and_placeField_allOnes, placeField_inj (by omega), CmdWord.opcode_eq_field]

/-! ### Rows -/

/-- The mask of a format: ones over the opcode and over each reserved field. -/
def formatMask : List (Nat × Nat) → CmdWord
  | [] => placeField (BitVec.allOnes 8) 120
  | f :: fs => formatMask fs ||| placeField (BitVec.allOnes f.2) f.1

/-- A format's mask selects the words with the opcode and zero in each reserved field. -/
theorem and_formatMask_eq_iff {op : Byte} {fs : List (Nat × Nat)} (hfs : ∀ f ∈ fs, f.1 + f.2 ≤ 120)
    (w : CmdWord) :
    w &&& formatMask fs = placeField op 120 ↔ w.opcode = op ∧ ∀ f ∈ fs, w.field f.1 f.2 = 0 := by
  induction fs with
  | nil => simpa [formatMask] using and_opcode_mask_eq_iff w
  | cons f fs ih =>
    obtain ⟨hf, hfs⟩ := List.forall_mem_cons.1 hfs
    have hapart : placeField op 120 &&& placeField (BitVec.allOnes f.2) f.1 = 0 := by
      rw [and_placeField_allOnes, CmdWord.field_place_apart _ _ _ _ (by omega), placeField_zero]
    rw [formatMask, and_or_eq_iff hapart, ih hfs, and_placeField_allOnes, ← placeField_zero f.2 f.1,
      placeField_inj (by omega), List.forall_mem_cons, and_assoc, and_comm (a := w.field f.1 f.2 = 0)]

theorem reservedFields_below_opcode (op : Byte) : ∀ f ∈ reservedFields op, f.1 + f.2 ≤ 120 := by
  unfold reservedFields
  split <;> simp

/-- The printed match and mask of each row are those of its opcode and of its opcode's format. -/
theorem opcodeTable_row : ∀ r ∈ opcodeTable, r.bits = placeField (CmdWord.opcode r.bits) 120 ∧
    r.mask = formatMask (reservedFields (CmdWord.opcode r.bits)) := by decide

theorem opcodeTable_selects_iff {r : OpRow} (hr : r ∈ opcodeTable) (w : CmdWord) :
    w &&& r.mask = r.bits ↔ w.opcode = CmdWord.opcode r.bits ∧ w.reservedZero = true := by
  obtain ⟨hbits, hmask⟩ := opcodeTable_row r hr
  rw [hmask, hbits, and_formatMask_eq_iff (reservedFields_below_opcode _), ← hbits, CmdWord.reservedZero_iff]
  exact and_congr_right fun hop => by rw [hop]

theorem opcodeDefined_iff_exists_row (w : CmdWord) :
    w.opcodeDefined = true ↔ ∃ r ∈ opcodeTable, w.opcode = CmdWord.opcode r.bits := by
  rw [CmdWord.opcodeDefined_iff]
  simp [opcodeTable, CmdWord.opcode]

theorem mnemonic_eq_iff_opcode_eq (i : Instr) :
    ∀ r ∈ opcodeTable, i.mnemonic = r.mnemonic ↔ i.opcode = CmdWord.opcode r.bits := by
  cases i <;> simp only [Instr.mnemonic, Instr.opcode] <;> decide

theorem opcodeTable_opcode_inj : ∀ r ∈ opcodeTable, ∀ r' ∈ opcodeTable,
    CmdWord.opcode r.bits = CmdWord.opcode r'.bits → r = r' := by decide

/-- Settles O5: a row and a command of the row's mnemonic ask for the same opcode and the same reserved bits. -/
theorem decodeAgreesWithOpcodeTable : Obligations.DecodeAgreesWithOpcodeTable := by
  constructor
  · intro w r hr
    rw [opcodeTable_selects_iff hr]
    constructor
    · rintro ⟨hop, hzero⟩
      have hdef : w.opcodeDefined = true := (opcodeDefined_iff_exists_row w).2 ⟨r, hr, hop⟩
      obtain ⟨i, hi⟩ := (wellFormed_iff_exists_decode w).1 (by simp [CmdWord.wellFormed, hdef, hzero])
      exact ⟨i, hi, (mnemonic_eq_iff_opcode_eq i r hr).2 ((decode_eq_ok_iff.1 hi).opcode.symm.trans hop)⟩
    · rintro ⟨i, hi, hname⟩
      have hfits := decode_eq_ok_iff.1 hi
      exact ⟨hfits.opcode.trans ((mnemonic_eq_iff_opcode_eq i r hr).1 hname), hfits.reserved⟩
  · intro w r hr r' hr' h h'
    obtain ⟨hop, -⟩ := (opcodeTable_selects_iff hr w).1 h
    obtain ⟨hop', -⟩ := (opcodeTable_selects_iff hr' w).1 h'
    exact opcodeTable_opcode_inj r hr r' hr' (hop.symm.trans hop')

/-! ### Illegal words -/

theorem matchesTable_eq_wellFormed (w : CmdWord) : matchesTable w = w.wellFormed := by
  have hrow : matchesTable w = true ↔ ∃ r ∈ opcodeTable, w &&& r.mask = r.bits := by
    simp [matchesTable, OpRow.selects]
  rw [Bool.eq_iff_iff, hrow, CmdWord.wellFormed, Bool.and_eq_true, opcodeDefined_iff_exists_row]
  constructor
  · rintro ⟨r, hr, h⟩
    obtain ⟨hop, hzero⟩ := (opcodeTable_selects_iff hr w).1 h
    exact ⟨⟨r, hr, hop⟩, hzero⟩
  · rintro ⟨⟨r, hr, hop⟩, hzero⟩
    exact ⟨r, hr, (opcodeTable_selects_iff hr w).2 ⟨hop, hzero⟩⟩

/-- A word that matches no row is rejected by the decoder. -/
theorem decode_error_of_no_match {w : CmdWord} (h : matchesTable w = false) : ∃ e, decode w = .error e := by
  cases hd : decode w with
  | error e => exact ⟨e, rfl⟩
  | ok i =>
    have hwf := (wellFormed_iff_exists_decode w).2 ⟨i, hd⟩
    rw [matchesTable_eq_wellFormed, hwf] at h
    cases h

/-- Settles O6: the table selects the well-formed words, and issuing any other word raises `IllegalCommand`. -/
theorem illegalWordsAnswerIllegal : Obligations.IllegalWordsAnswerIllegal := by
  refine ⟨matchesTable_eq_wellFormed, ?_, ?_⟩
  · intro w hop
    have hdef : w.opcodeDefined = false := by
      simp only [CmdWord.opcodeDefined, Bool.and_eq_false_iff, decide_eq_false_iff_not]
      omega
    rw [matchesTable_eq_wellFormed, CmdWord.wellFormed, hdef, Bool.false_and]
  · intro w s rest hin hno
    obtain ⟨e, he⟩ := decode_error_of_no_match hno
    exact (step_cons hin).trans (issue_error he)

end Sys2Proof
end

section
/-!
SUPPORT. The byte-wide transport and the response word (spec 30_encoding.md R47 to R49).
-/

namespace Sys2Proof

open Sys2Proof.Machine

/-! ### Big-endian byte strings -/

/-- Byte `k` of the `n`-byte big-endian form of a word lies `n - 1 - k` bytes above its lowest bit. -/
theorem getElem?_beBytes_toNat {m : Nat} (w : BitVec m) {n k : Nat} (hk : k < n) :
    (beBytes n w.toNat)[k]? = some (w.extractLsb' (8 * (n - 1 - k)) 8) := by
  induction n generalizing k with
  | zero => omega
  | succ n ih =>
    cases k with
    | zero =>
      rw [beBytes, List.getElem?_cons_zero, BitVec.extractLsb', Nat.shiftRight_eq_div_pow, Nat.pow_mul]
      rfl
    | succ k => rw [beBytes, List.getElem?_cons_succ, ih (by omega), show n + 1 - 1 - (k + 1) = n - 1 - k by omega]

theorem beNat_beBytes (n v : Nat) : beNat (beBytes n v) = v % 256 ^ n := by
  induction n with
  | zero => simp [beBytes, beNat, Nat.mod_one]
  | succ n ih =>
    rw [beBytes, beNat, ih, beBytes_length, BitVec.toNat_ofNat, show 2 ^ 8 = 256 from rfl, Nat.pow_succ,
      Nat.mod_mul, Nat.add_comm, Nat.mul_comm]

/-- The received bytes spell the word sent. -/
theorem decodeBytes_commandBytes (w : CmdWord) : decodeBytes (commandBytes w) = decode w := by
  have hw : w.toNat % 256 ^ 16 = w.toNat := Nat.mod_eq_of_lt (by simpa using w.isLt)
  rw [decodeBytes, commandBytes, beBytes_length, if_pos rfl, beNat_beBytes, hw, BitVec.ofNat_toNat, BitVec.setWidth_eq]

/-- Settles O7: both transports send the big-endian bytes of their word. -/
theorem bytesTravelMostSignificantFirst : Obligations.BytesTravelMostSignificantFirst := by
  refine ⟨?_, fun w => ⟨beBytes_length 16 _, decodeBytes_commandBytes w⟩, ?_, fun q => beBytes_length 5 _⟩
  · intro w k hk
    rw [commandBytes, getElem?_beBytes_toNat w hk, show 8 * (16 - 1 - k) = 120 - 8 * k by omega]
  · intro q k hk
    rw [responseBytes, getElem?_beBytes_toNat q.word hk, show 8 * (5 - 1 - k) = 32 - 8 * k by omega]

/-! ### The response word -/

theorem Machine.Response.word_toNat (q : Response) :
    q.word.toNat = q.status.code.toNat * 2 ^ 32 + q.value.toNat := by
  have hc := q.status.code.isLt
  have hv := q.value.isLt
  rw [Response.word, BitVec.toNat_ofNat, Nat.mod_eq_of_lt (by omega)]

/-- Settles O8: the value fills the low 32 bits, so the code stands above it. -/
theorem responseWordHoldsStatusAndValue : Obligations.ResponseWordHoldsStatusAndValue := by
  refine ⟨fun q => ?_, rfl, rfl, rfl, rfl⟩
  have hc := q.status.code.isLt
  have hv := q.value.isLt
  constructor <;> apply BitVec.eq_of_toNat_eq
  · rw [BitVec.extractLsb'_toNat, Response.word_toNat, Nat.shiftRight_eq_div_pow]
    omega
  · rw [BitVec.extractLsb'_toNat, Response.word_toNat, Nat.shiftRight_zero]
    omega

end Sys2Proof
end

section
/-!
SUPPORT. Stepping through a queued sequence against running its commands as a whole (spec 30_encoding.md R51,
44_compositions.md R107).
-/

namespace Sys2Proof.Machine

/-! ### Runs of any machine -/

theorem run_succ_of_next {M : Host.Core} {s t : M.State} (h : M.step s = .next t) (k : Nat) :
    M.run (k + 1) s = M.run k t := by
  rw [Host.Core.run, h]

theorem run_one {M : Host.Core} (s : M.State) : M.run 1 s = M.step s := by
  rw [Host.Core.run]
  cases M.step s <;> rfl

/-! ### A queued expansion -/

theorem core_run_succ {s t : State} (h : step s = .next t) (k : Nat) : core.run (k + 1) s = core.run k t :=
  run_succ_of_next (M := core) (s := s) (t := t) h k

theorem core_run_one (s : State) : core.run 1 s = step s := run_one (M := core) s

/-- The state whose next moves issue what is left of an expansion. -/
def State.queue (is : List Instr) (s : State) : State :=
  { s with inputs := pushSequence (is.map encode) s.inputs }

theorem step_queue_cons (i : Instr) (is : List Instr) (s : State) :
    step (s.queue (i :: is)) = issueSequence (encode i :: is.map encode) s :=
  step_cons (s := s.queue (i :: is)) rfl

/-- After a command whose response is `OK` the rest of the expansion is queued (R51). -/
theorem step_queue_cons_ok {i : Instr} {s t : State} (h : exec i s = .next t) (hok : t.lastOk = true)
    (is : List Instr) : step (s.queue (i :: is)) = .next (t.queue is) := by
  rw [step_queue_cons, issueSequence, issue_ok (decodeOfEncode i), h]
  simp [hok, State.queue]

/-- After an error response nothing of the expansion is queued (R107). -/
theorem step_queue_cons_error {i : Instr} {s t : State} (h : exec i s = .next t) (he : t.lastOk = false)
    (is : List Instr) : step (s.queue (i :: is)) = .next t := by
  rw [step_queue_cons, issueSequence, issue_ok (decodeOfEncode i), h]
  simp [he]

theorem step_queue_cons_refused {i : Instr} {s : State} {r : Refusal} (h : exec i s = .refused r)
    (is : List Instr) : step (s.queue (i :: is)) = .refused r := by
  rw [step_queue_cons, issueSequence, issue_ok (decodeOfEncode i), h]

/-- By induction on the expansion: one step runs its first command, and queues the rest exactly when the
whole run goes on. -/
theorem exists_run_queue_eq_runSeq (is : List Instr) (s : State) :
    ∃ k, k ≤ is.length ∧ core.run k (s.queue is) = runSeq is s := by
  induction is generalizing s with
  | nil => exact ⟨0, Nat.le_refl 0, rfl⟩
  | cons i is ih =>
    cases h : exec i s with
    | next t =>
      cases hok : t.lastOk with
      | true =>
        obtain ⟨k, hk, hrun⟩ := ih t
        exact ⟨k + 1, Nat.succ_le_succ hk, by
          rw [core_run_succ (step_queue_cons_ok h hok is), hrun, runSeq_cons_ok h hok]⟩
      | false =>
        exact ⟨1, Nat.le_add_left 1 _, by
          rw [core_run_one, step_queue_cons_error h hok, runSeq_cons_error h hok]⟩
    | fault e => exact absurd h exec_no_fault
    | refused r =>
      exact ⟨1, Nat.le_add_left 1 _, by rw [core_run_one, step_queue_cons_refused h, runSeq, h]⟩

/-- Settles O52: a state whose next move is the sequence is the state after taking it, with the expansion queued. -/
theorem sequenceStepsRefineExpansion : Obligations.SequenceStepsRefineExpansion := by
  intro is s rest hin hne
  have hqueue : s = State.queue is { s with inputs := rest } := by
    obtain ⟨i, is, rfl⟩ := List.exists_cons_of_ne_nil hne
    obtain ⟨acc, fb, fbLen, loaded, inputs, responses⟩ := s
    cases hin
    rfl
  obtain ⟨k, hk, hrun⟩ := exists_run_queue_eq_runSeq is { s with inputs := rest }
  exact ⟨k, hk, by rwa [← hqueue] at hrun⟩

end Sys2Proof.Machine
end

section
/-!
SUPPORT. The accumulate commands (spec 40_accumulate.md): what a sum of words is as a number, what each command adds,
and what a sequence of commands has added in the end.

The sum of a word list, like one end-around add, is determined by its residue and its zero, so its fold is the fold of
the exact sum.
-/

namespace Sys2Proof

/-! ### The words of R41's rows -/

/-- The word with the value of a command's row decodes to the command (R41, R43). -/
theorem decode_ofNat_wordValue (i : Instr) : decode (BitVec.ofNat 128 i.wordValue) = .ok i := by
  rw [← (encode_fits i).toNat_eq, BitVec.ofNat_toNat, BitVec.setWidth_eq]
  exact decodeOfEncode i

end Sys2Proof

namespace Sys2Proof.Machine

/-! ### Sums of words (R7, R65, R67) -/

theorem addWord_eq_ofNat (acc : Word) (w : HWord) : addWord acc w = BitVec.ofNat 32
    (if acc.toNat + w.toNat < 2 ^ 32 then acc.toNat + w.toNat else acc.toNat + w.toNat - 2 ^ 32 + 1) := by
  apply BitVec.eq_of_toNat_eq
  have hacc := acc.isLt
  have hw := w.isLt
  rw [addWord_toNat, BitVec.toNat_ofNat]
  split <;> split <;> omega

theorem addWord_right_comm (acc : Word) (v w : HWord) : addWord (addWord acc v) w = addWord (addWord acc w) v := by
  rw [addWord, addWord, ocAdd32_assoc, ocAdd32_comm (v.setWidth 32), ← ocAdd32_assoc]
  rfl

/-- The order of the words does not matter (R65). -/
theorem sumWords_perm {ws ws' : List HWord} (h : ws.Perm ws') (acc : Word) : sumWords acc ws = sumWords acc ws' :=
  h.foldl_eq' (fun v _ w _ acc => addWord_right_comm acc v w) acc

theorem sumWords_toNat_mod (acc : Word) (ws : List HWord) :
    (sumWords acc ws).toNat % (2 ^ 32 - 1) = (acc.toNat + exactSum ws) % (2 ^ 32 - 1) := by
  induction ws generalizing acc with
  | nil => rfl
  | cons w ws ih =>
    rw [sumWords_cons, ih, exactSum_cons, addWord_toNat]
    split <;> omega

theorem sumWords_toNat_eq_zero_iff (acc : Word) (ws : List HWord) :
    (sumWords acc ws).toNat = 0 ↔ acc.toNat + exactSum ws = 0 := by
  induction ws generalizing acc with
  | nil => rfl
  | cons w ws ih =>
    rw [sumWords_cons, ih, exactSum_cons, addWord_toNat]
    split <;> omega

/-- No added words make a non-zero start zero (R60). -/
theorem eq_zero_of_sumWords_eq_zero {acc : Word} {ws : List HWord} (h : sumWords acc ws = 0) : acc = 0 := by
  have hsum : acc.toNat + exactSum ws = 0 := (sumWords_toNat_eq_zero_iff acc ws).1 (by rw [h]; rfl)
  exact BitVec.eq_of_toNat_eq (Nat.eq_zero_of_add_eq_zero_right hsum)

/-- A word with the residue and the zero of a number folds as the number does (R8). -/
theorem fold16_toNat_eq_foldNat_of_mod {x : Word} {n : Nat} (hmod : x.toNat % 65535 = n % 65535)
    (hzero : x.toNat = 0 ↔ n = 0) : (fold16 x).toNat = foldNat n :=
  (eq_foldNat_iff (fold16 x).isLt).2
    ⟨(fold16_toNat_mod x).trans hmod, (fold16_toNat_eq_zero_iff x).trans hzero⟩

/-- The fold of the accumulated sum is the fold of the exact sum (R67). -/
theorem fold16_sumWords_toNat (acc : Word) (ws : List HWord) :
    (fold16 (sumWords acc ws)).toNat = foldNat (acc.toNat + exactSum ws) := by
  have hmod := sumWords_toNat_mod acc ws
  exact fold16_toNat_eq_foldNat_of_mod (by omega) (sumWords_toNat_eq_zero_iff acc ws)

theorem fold16_sumWords_zero_toNat (ws : List HWord) : (fold16 (sumWords 0 ws)).toNat = foldNat (exactSum ws) :=
  (fold16_sumWords_toNat 0 ws).trans (congrArg foldNat (Nat.zero_add _))

theorem cksum16_sumWords_zero (ws : List HWord) : cksum16 (sumWords 0 ws) = inetWords ws := by
  rw [cksum16, inetWords, ← fold16_sumWords_zero_toNat, BitVec.ofNat_toNat, BitVec.setWidth_eq]

/-- Adding the two halves of a 32-bit number folds as adding the number at once (R62). -/
theorem fold16_sumWords_halves (acc v : Word) : fold16 (sumWords acc (halves v)) = fold16 (ocAdd32 acc v) := by
  have hsum : exactSum (halves v) = v.toNat / 2 ^ 16 + v.toNat % 2 ^ 16 := by
    rw [halves, exactSum_cons, exactSum_cons, exactSum_nil, hiHalf_toNat, loHalf_toNat, Nat.add_zero]
  have hmod := ocAdd32_toNat_mod_65535 acc v
  have hzero := ocAdd32_toNat_eq_zero_iff acc v
  apply BitVec.eq_of_toNat_eq
  rw [fold16_sumWords_toNat, hsum]
  exact (fold16_toNat_eq_foldNat_of_mod (by omega) (by omega)).symm

theorem ofNat_div_eq_hiHalf (v : Word) : BitVec.ofNat 16 (v.toNat / 2 ^ 16) = hiHalf v := by
  rw [← hiHalf_toNat, BitVec.ofNat_toNat, BitVec.setWidth_eq]

theorem ofNat_mod_eq_loHalf (v : Word) : BitVec.ofNat 16 (v.toNat % 2 ^ 16) = loHalf v := by
  rw [← loHalf_toNat, BitVec.ofNat_toNat, BitVec.setWidth_eq]

/-! ### The words of a window (R63, R66) -/

theorem Memory.fullWords_eq_map (m : Memory) (a n : Nat) : Memory.fullWords m a n =
    (List.range n).map fun i => be16 (Memory.read m (a + 2 * i)) (Memory.read m (a + 2 * i + 1)) := by
  induction n with
  | zero => rfl
  | succ n ih => rw [Memory.fullWords_succ, ih, List.range_succ, List.map_append, List.map_singleton]

theorem Memory.windowWords_eq_map (m : Memory) (base len : Nat) : Memory.windowWords m base len =
    (List.range (len / 2)).map
        (fun i => be16 (Memory.read m (base + 2 * i)) (Memory.read m (base + 2 * i + 1))) ++
      if len % 2 = 1 then [be16 (Memory.read m (base + len - 1)) 0] else [] := by
  rw [Memory.windowWords, Memory.fullWords_eq_map, Memory.tailWord, Memory.memRead_one]

theorem Memory.fullWords_add (m : Memory) (a p q : Nat) :
    Memory.fullWords m a (p + q) = Memory.fullWords m a p ++ Memory.fullWords m (a + 2 * p) q := by
  induction q with
  | zero => rw [Nat.add_zero, Memory.fullWords, List.append_nil]
  | succ q ih =>
    rw [← Nat.add_assoc, Memory.fullWords_succ, ih, Memory.fullWords_succ, List.append_assoc, Nat.mul_add,
      ← Nat.add_assoc a]

/-- A window's words are those of its even first part and those of the rest (R66). -/
theorem Memory.windowWords_add {m : Memory} {base k len : Nat} (heven : k % 2 = 0) :
    Memory.windowWords m base (k + len) = Memory.windowWords m base k ++ Memory.windowWords m (base + k) len := by
  obtain ⟨p, rfl⟩ : ∃ p, k = 2 * p := ⟨k / 2, by omega⟩
  have hfull : Memory.fullWords m base ((2 * p + len) / 2) =
      Memory.fullWords m base (2 * p / 2) ++ Memory.fullWords m (base + 2 * p) (len / 2) := by
    rw [show (2 * p + len) / 2 = p + len / 2 by omega, show 2 * p / 2 = p by omega, Memory.fullWords_add]
  have hfirst : Memory.tailWord m base (2 * p) = [] := if_neg (by omega)
  have hrest : Memory.tailWord m base (2 * p + len) = Memory.tailWord m (base + 2 * p) len := by
    rw [Memory.tailWord, Memory.tailWord, Nat.mul_add_mod, Nat.add_assoc]
  rw [Memory.windowWords, Memory.windowWords, Memory.windowWords, hfull, hfirst, hrest, List.append_nil,
    List.append_assoc]

/-! ### The piece of a command -/

theorem pieceOf_congr {s t : State} (hfb : t.fb = s.fb) (hlen : t.fbLen = s.fbLen) : pieceOf t = pieceOf s := by
  funext i
  cases i <;> simp only [pieceOf, hfb, hlen]

theorem pieceOf_adds_inside {s : State} {base len : Word} (h : base.toNat + len.toNat ≤ s.fbLen) :
    pieceOf s (.adds base len) = Memory.windowWords s.fb base.toNat len.toNat :=
  if_pos (windowAdmitted_iff.2 h)

theorem pieceOf_adds_outside {s : State} {base len : Word} (h : s.fbLen < base.toNat + len.toNat) :
    pieceOf s (.adds base len) = [] := by
  rw [pieceOf, windowAdmitted_false_iff.2 h]
  rfl

/-- A command other than `CLR` does to `ACC` just the addition of its piece (R60 to R63, R90). -/
theorem exec_acc_eq_sumWords {i : Instr} {s t : State} (hi : i ≠ .clr) (h : exec i s = .next t) :
    t.acc = sumWords s.acc (pieceOf s i) := by
  cases i with
  | clr => exact absurd rfl hi
  | add2 | add4 | fin | rda | upd2 | upd4 => cases h; rfl
  | stf addr => exact exec_keeps_acc hi rfl h
  | adds base len =>
    obtain ⟨-, ⟨hw, rfl⟩ | ⟨hw, rfl⟩⟩ := exec_adds_next.1 h
    · rw [pieceOf_adds_inside hw]
      rfl
    · rw [pieceOf_adds_outside hw]
      rfl
  | phdr src dst proto hlen plen =>
    obtain hw | hw := le_or_gt (hlen.toNat + plen.toNat) 65535
    · rw [exec_phdr_ok hw] at h
      cases h
      rw [pieceOf, lengthTooLarge_false_iff.2 hw]
      rfl
    · rw [exec_phdr_tooLarge hw] at h
      cases h
      rw [pieceOf, lengthTooLarge_iff.2 hw]
      rfl

/-- An accumulate command does not change what a later one adds: it keeps the frame (R65). -/
theorem pieceOf_after_accumulate {i : Instr} {s t : State} (hi : accumulates i = true) (h : exec i s = .next t) :
    pieceOf t = pieceOf s := by
  obtain hfb | ⟨addr, rfl, -⟩ := exec_fb_cases h
  · obtain ⟨-, hlen, -⟩ := exec_keeps_launch h
    exact pieceOf_congr hfb hlen
  · cases hi

/-! ### Each accumulate command -/

/-- Settles O18: the one add of `ADD2`, with its value written out. -/
theorem add2AddsOneWord : Obligations.Add2AddsOneWord := by
  refine ⟨fun imm16 => decode_ofNat_wordValue (.add2 imm16), fun imm16 s => ?_⟩
  rw [exec_add2, ← addWord_eq_ofNat]
  rfl

/-- Settles O17: a command other than `CLR` only adds, and a sum that is zero starts from zero. -/
theorem clrStartsNewAccumulation : Obligations.ClrStartsNewAccumulation := by
  refine ⟨decode_ofNat_wordValue .clr, exec_clr, fun i s t h hs ht => ?_⟩
  by_contra hi
  exact hs (eq_zero_of_sumWords_eq_zero ((exec_acc_eq_sumWords hi h).symm.trans ht))

/-- Settles O19: `ADD4` adds the words of two `ADD2`, and their sum folds as the sum with the whole number. -/
theorem add4AddsBothHalves : Obligations.Add4AddsBothHalves := by
  refine ⟨fun imm32 => decode_ofNat_wordValue (.add4 imm32), fun imm32 s => ?_⟩
  rw [ofNat_div_eq_hiHalf, ofNat_mod_eq_loHalf]
  refine ⟨_, _, exec_add2 _ s, exec_add2 _ _, exec_add4 imm32 s, ?_⟩
  exact congrArg (~~~ ·) (fold16_sumWords_halves s.acc imm32)

/-- Settles O20: outside the frame the response is the error, inside the words of the window are added. -/
theorem addsSumsWindowOrAnswersBounds : Obligations.AddsSumsWindowOrAnswersBounds := by
  refine ⟨fun base len => decode_ofNat_wordValue (.adds base len), fun base len s hl =>
    ⟨exec_adds_outside hl, fun hw => ?_⟩⟩
  rw [exec_adds_inside hl hw, Memory.windowWords_eq_map]
  rfl

/-! ### Sequences of commands -/

theorem withWindow_of_loaded {base len : Nat} {body : State → State} {s : State} (hl : s.loaded = true) :
    ∃ t, withWindow base len body s = .next t := by
  obtain hw | hw := le_or_gt (base + len) s.fbLen
  · exact ⟨_, withWindow_admitted hl hw⟩
  · exact ⟨_, withWindow_outside hl hw⟩

/-- In a loaded launch every command completes (R133, R141). -/
theorem exec_of_loaded {s : State} (hl : s.loaded = true) (i : Instr) : ∃ t, exec i s = .next t := by
  cases i with
  | clr | add2 | add4 | fin | rda | upd2 | upd4 => exact ⟨_, rfl⟩
  | adds base len =>
    rw [exec, execAdds]
    exact withWindow_of_loaded hl
  | stf addr =>
    rw [exec, execStf]
    exact withWindow_of_loaded hl
  | phdr src dst proto hlen plen =>
    obtain hw | hw := le_or_gt (hlen.toNat + plen.toNat) 65535
    · exact ⟨_, exec_phdr_ok hw⟩
    · exact ⟨_, exec_phdr_tooLarge hw⟩

theorem runAll_cons_next {i : Instr} {is : List Instr} {s t : State} :
    runAll (i :: is) s = .next t ↔ ∃ u, exec i s = .next u ∧ runAll is u = .next t := by
  rw [runAll]
  cases exec i s <;> simp

theorem runAll_append {is : List Instr} {s t : State} (h : runAll is s = .next t) (js : List Instr) :
    runAll (is ++ js) s = runAll js t := by
  induction is generalizing s with
  | nil => cases h; rfl
  | cons i is ih =>
    obtain ⟨u, hu, hrun⟩ := runAll_cons_next.1 h
    rw [List.cons_append, runAll_cons hu, ih hrun]

/-- In a loaded launch every sequence of commands completes (R133, R141). -/
theorem runAll_of_loaded {s : State} (hl : s.loaded = true) (is : List Instr) : ∃ t, runAll is s = .next t := by
  induction is generalizing s with
  | nil => exact ⟨s, rfl⟩
  | cons i is ih =>
    obtain ⟨u, hu⟩ := exec_of_loaded hl i
    obtain ⟨-, -, hload⟩ := exec_keeps_launch hu
    obtain ⟨t, ht⟩ := ih (hload.trans hl)
    exact ⟨t, runAll_cons_next.2 ⟨u, hu, ht⟩⟩

/-- Accumulate commands have added the words of their pieces in the end, each piece that of the first state (R65). -/
theorem runAll_acc_eq_sumWords {is : List Instr} {s t : State} (his : ∀ i ∈ is, accumulates i = true)
    (h : runAll is s = .next t) : t.acc = sumWords s.acc (is.flatMap (pieceOf s)) := by
  induction is generalizing s with
  | nil => cases h; rfl
  | cons i is ih =>
    obtain ⟨hi, his⟩ := List.forall_mem_cons.1 his
    obtain ⟨u, hu, hrun⟩ := runAll_cons_next.1 h
    have hclr : i ≠ .clr := by rintro rfl; cases hi
    rw [ih his hrun, pieceOf_after_accumulate hi hu, exec_acc_eq_sumWords hclr hu, List.flatMap_cons,
      sumWords_append]

/-- Settles O23: the words are added in some order, and the order of a sum does not matter. -/
theorem accumulationIsOrderIndependent : Obligations.AccumulationIsOrderIndependent := by
  constructor
  · intro s is hl his
    obtain ⟨t, ht⟩ := runAll_of_loaded hl is
    exact ⟨t, ht, runAll_acc_eq_sumWords his ht⟩
  · intro s t u is js his hjs ht hu hperm
    rw [runAll_acc_eq_sumWords his ht, runAll_acc_eq_sumWords hjs hu, sumWords_perm hperm]

/-- Settles O24: an even split leaves the words of the window, and the frame `01 02` split after its first byte adds
`0100` and `0200` in place of `0102`. -/
theorem sliceSplitsAtEvenOffsets : Obligations.SliceSplitsAtEvenOffsets := by
  constructor
  · intro s base k base' len' len hl heven hk hbase hlen hw
    obtain ⟨t, ht⟩ := runAll_of_loaded hl [.adds base k, .adds base' len']
    obtain ⟨u, hu⟩ := exec_of_loaded hl (.adds base len)
    have hwords : Memory.windowWords s.fb base.toNat len.toNat =
        Memory.windowWords s.fb base.toNat k.toNat ++ Memory.windowWords s.fb base'.toNat len'.toNat := by
      rw [hbase, ← Memory.windowWords_add heven, hlen, Nat.add_sub_cancel' hk]
    refine ⟨t, u, ht, hu, ?_⟩
    rw [runAll_acc_eq_sumWords (by simp [accumulates]) ht, exec_acc_eq_sumWords (by simp) hu,
      pieceOf_adds_inside hw, hwords, List.flatMap_cons, List.flatMap_cons, List.flatMap_nil, List.append_nil,
      pieceOf_adds_inside (by omega), pieceOf_adds_inside (by omega)]
  · exact ⟨State.reset.loadFrame [0x01, 0x02], _, _, 0, 1, 1, 1, 2, by decide, rfl, rfl, rfl, rfl, rfl, rfl,
      by decide⟩

/-- Settles O25: the residue and the zero of a sum from zero are those of the exact sum, and so is the fold. -/
theorem accumulatedSumIsExact : Obligations.AccumulatedSumIsExact := by
  intro s t is his hs h
  have hacc := runAll_acc_eq_sumWords his h
  rw [hs] at hacc
  rw [hacc]
  generalize is.flatMap (pieceOf s) = ws
  have hmod := sumWords_toNat_mod 0 ws
  have hzero := sumWords_toNat_eq_zero_iff 0 ws
  have hstart : (0 : Word).toNat = 0 := rfl
  rw [hstart, Nat.zero_add] at hmod hzero
  exact ⟨fun hsum => BitVec.eq_of_toNat_eq (hzero.2 hsum), fun hpos => ⟨by omega, hmod⟩,
    fold16_sumWords_zero_toNat ws, sumWords_zero_toNat⟩

/-- Settles O26: `CLR` starts the sum from zero, the sequence adds the string's words, and `FIN` answers the finished
sum. -/
theorem finReturnsInternetChecksum : Obligations.FinReturnsInternetChecksum := by
  intro s is bytes hl his hperm
  obtain ⟨t, ht⟩ := runAll_of_loaded (s := (s.setAcc 0).respond 0) hl is
  have hpiece : pieceOf ((s.setAcc 0).respond 0) = pieceOf s := pieceOf_congr rfl rfl
  have hacc : t.acc = sumWords 0 (wordsOf bytes) := by
    rw [runAll_acc_eq_sumWords his ht, hpiece, sumWords_perm hperm, State.respond_acc, State.setAcc_acc]
  refine ⟨t.respond (t.finished.setWidth 32), ?_, ?_⟩
  · rw [List.cons_append, runAll_cons (exec_clr s), runAll_append ht]
    rfl
  · rw [State.respond_responses, List.head?_cons, State.finished, hacc, cksum16_sumWords_zero]
    rfl

end Sys2Proof.Machine
end

section
/-!
SUPPORT. The finish commands (spec 41_finalize.md): the value they answer and store, what they leave, and that adding
the finished value to a sum makes the sum verify.
-/

namespace Sys2Proof.Machine

open Sys2Proof.Spec

/-! ### The finished value as a number (R8, R70) -/

theorem cksum16_setWidth (x : Word) : (cksum16 x).setWidth 32 = BitVec.ofNat 32 (0xFFFF - twoStepFold x.toNat) := by
  rw [← cksum16_toNat_eq_twoStepFold, BitVec.ofNat_toNat]

theorem exactSum_eq_zero_iff (ws : List HWord) : exactSum ws = 0 ↔ ∀ w ∈ ws, w = 0 := by
  induction ws with
  | nil => simp
  | cons w ws ih => rw [exactSum_cons, Nat.add_eq_zero_iff, ih, List.forall_mem_cons, ← BitVec.toNat_inj]; rfl

theorem sumWords_zero_eq_zero_iff (ws : List HWord) : sumWords 0 ws = 0 ↔ ∀ w ∈ ws, w = 0 := by
  have hzero : (0 : Word).toNat = 0 := rfl
  rw [BitVec.toNat_eq, hzero, sumWords_toNat_eq_zero_iff, hzero, Nat.zero_add, exactSum_eq_zero_iff]

/-! ### The answers of `FIN` and `STF` -/

/-- `FIN` answers the finished value and does nothing else (R70). -/
theorem exec_fin_answered (s : State) : exec .fin s = .next (answered ⟨.ok, (cksum16 s.acc).setWidth 32⟩ s) :=
  exec_fin s

/-- Settles O28: the finished value is the complemented fold, and each of its two end values is that of the fold. -/
theorem finAnswersFoldedComplement : Obligations.FinAnswersFoldedComplement := by
  refine ⟨decode_ofNat_wordValue .fin, fun s => ?_, fun x => ?_, fun x => ?_, sumWords_zero_eq_zero_iff⟩
  · rw [exec_fin_answered, cksum16_setWidth]
  · rw [← cksum16_toNat_eq_twoStepFold, ← cksum16_eq_ones_iff, BitVec.toNat_eq]
    rfl
  · rw [← cksum16_toNat_eq_twoStepFold, ← cksum16_eq_zero_iff, BitVec.toNat_eq]
    rfl

theorem exec_stf_inside {addr : Word} {s : State} (hl : s.loaded = true) (hw : addr.toNat + 2 ≤ s.fbLen) :
    exec (.stf addr) s =
      .next ((s.store addr.toNat 2 (cksum16 s.acc).toNat).respond ((cksum16 s.acc).setWidth 32)) :=
  exec_stf_next.2 ⟨hl, .inl ⟨hw, rfl⟩⟩

theorem exec_stf_outside {addr : Word} {s : State} (hl : s.loaded = true) (hw : s.fbLen < addr.toNat + 2) :
    exec (.stf addr) s = .next (s.raise .boundsError) :=
  exec_stf_next.2 ⟨hl, .inr ⟨hw, rfl⟩⟩

theorem extractLsb'_high_eq_ofNat (c : HWord) : c.extractLsb' 8 8 = BitVec.ofNat 8 (c.toNat / 256) := by
  rw [BitVec.extractLsb', Nat.shiftRight_eq_div_pow]

theorem extractLsb'_low_eq_ofNat (c : HWord) : c.extractLsb' 0 8 = BitVec.ofNat 8 (c.toNat % 256) := by
  rw [BitVec.extractLsb', Nat.shiftRight_zero]
  exact BitVec.eq_of_toNat_eq (Nat.mod_mod c.toNat 256).symm

/-- Settles O29: outside the frame the response is the error, inside the store's two bytes are those of the finished
value. -/
theorem stfStoresChecksumBigEndian : Obligations.StfStoresChecksumBigEndian := by
  refine ⟨fun addr => decode_ofNat_wordValue (.stf addr), fun addr s hs hl =>
    ⟨exec_stf_outside hl, fun hw => ⟨_, exec_stf_inside hl hw, ?_, ?_, ?_, ?_, rfl, rfl, rfl, rfl⟩⟩⟩
  · rw [← cksum16_toNat_eq_twoStepFold, ← extractLsb'_high_eq_ofNat]
    exact Memory.read_memWrite_high hs.canonical _ _
  · rw [← cksum16_toNat_eq_twoStepFold, ← extractLsb'_low_eq_ofNat]
    exact Memory.read_memWrite_low hs.canonical _ _
  · intro a hhigh hlow
    exact Memory.read_memWrite_other (by omega)
  · rw [State.respond_responses, State.store_responses, cksum16_setWidth]

/-! ### Reading a sum and putting it back (R72) -/

theorem zero_ocAdd32 (a : Word) : ocAdd32 0 a = a := by
  apply BitVec.eq_of_toNat_eq
  have ha := a.isLt
  have hzero : (0 : Word).toNat = 0 := rfl
  rw [ocAdd32_toNat, if_neg (by omega), hzero, Nat.zero_add]

/-- Settles O30: the two halves of a saved sum, added from zero, fold as the sum does. -/
theorem rdaAnswersAccumulator : Obligations.RdaAnswersAccumulator := by
  refine ⟨decode_ofNat_wordValue .rda, exec_rda, fun p s => ?_⟩
  refine ⟨(((s.setAcc 0).respond 0).accAdd (halves p)).respond 0, rfl, ?_⟩
  have hfold : fold16 (sumWords 0 (halves p)) = fold16 p := by rw [fold16_sumWords_halves, zero_ocAdd32]
  exact congrArg (~~~ ·) hfold

/-! ### Finishing does not consume the accumulator (R73) -/

/-- What a command leaves in `ACC` depends on `ACC` and the frame only. -/
theorem exec_acc_congr {i : Instr} {s s' t t' : State} (h : exec i s = .next t) (h' : exec i s' = .next t')
    (hacc : s'.acc = s.acc) (hfb : s'.fb = s.fb) (hlen : s'.fbLen = s.fbLen) : t'.acc = t.acc := by
  by_cases hi : i = .clr
  · subst hi
    cases h
    cases h'
    rfl
  · rw [exec_acc_eq_sumWords hi h, exec_acc_eq_sumWords hi h', hacc, pieceOf_congr hfb hlen]

/-- Settles O31: a finishing command adds nothing, and a `FIN` changes nothing that a later command's sum, or a later
`FIN`, depends on. -/
theorem finishingKeepsAccumulator : Obligations.FinishingKeepsAccumulator := by
  refine ⟨fun s t addr i hi h => ?_, fun s => ⟨_, _, exec_fin_answered s, rfl, exec_fin_answered _⟩,
    fun s t u i h hrun => ?_⟩
  · have hkind : i ≠ .clr ∧ accumulates i = false := by
      obtain rfl | rfl | rfl := hi <;> simp [accumulates]
    obtain ⟨hclr, hacc⟩ := hkind
    exact exec_keeps_acc hclr hacc h
  · rw [runAll_cons (exec_fin_answered s)] at hrun
    obtain ⟨v, hv, hnil⟩ := runAll_cons_next.1 hrun
    cases hnil
    exact exec_acc_congr h hv rfl rfl rfl

/-! ### The verification law (R74) -/

/-- The finished value completes the sum to a positive multiple of `65535`. -/
theorem cksum16_addWord_cksum16 (acc : Word) : cksum16 (addWord acc (cksum16 acc)) = 0 := by
  have hlt := (fold16 acc).isLt
  have hmod := fold16_toNat_mod acc
  have hzero := fold16_toNat_eq_zero_iff acc
  rw [cksum16_eq_zero_iff, addWord_toNat, cksum16_toNat]
  split <;> omega

/-- Settles O32: in any order the finished value may be added last, where it completes the sum. -/
theorem addingChecksumVerifies : Obligations.AddingChecksumVerifies := by
  constructor
  · intro s
    refine ⟨_, _, exec_add2 _ s, exec_fin_answered _, ?_⟩
    have hfin : cksum16 (sumWords s.acc [cksum16 s.acc]) = 0 := cksum16_addWord_cksum16 s.acc
    rw [State.respond_acc, State.accAdd_acc, hfin]
    rfl
  · intro ws ws' hperm
    have hlast : ws'.Perm (ws ++ [cksum16 (sumWords 0 ws)]) := hperm.trans (List.perm_append_singleton _ _).symm
    rw [sumWords_perm hlast, sumWords_append]
    exact cksum16_addWord_cksum16 _

end Sys2Proof.Machine
end

section
/-!
SUPPORT. The incremental-update commands (spec 42_incremental_update.md): the sum each one folds, and that the answer
for the checksum of some data is the checksum of the changed data.

The sum has the residue of the changed data, and it is not zero when the operands come from real data; so the
complemented fold is the new checksum wherever the changed data, too, has a non-zero sum (R82).
-/

namespace Sys2Proof.Machine

open Sys2Proof.Spec

/-! ### Words whose format's reserved fields are not zero (R44) -/

theorem issue_of_reserved_field_ne_zero {w : CmdWord} {f : Nat × Nat} (hf : f ∈ reservedFields w.opcode)
    (hne : w.field f.1 f.2 ≠ 0) (s : State) : issue w s = .next (s.raise .illegalCommand) := by
  have hres : w.reservedZero = false :=
    Bool.eq_false_iff.2 fun h => hne ((CmdWord.reservedZero_iff w).1 h f hf)
  have hno : matchesTable w = false := by
    rw [matchesTable_eq_wellFormed, CmdWord.wellFormed, hres, Bool.and_false]
  obtain ⟨e, he⟩ := decode_error_of_no_match hno
  exact issue_error he

/-! ### Checksums by residue and zero (R8) -/

theorem cksum16_congr {x y : Word} (hmod : x.toNat % 65535 = y.toNat % 65535)
    (hzero : x.toNat = 0 ↔ y.toNat = 0) : cksum16 x = cksum16 y := by
  have hfold : (fold16 x).toNat = (fold16 y).toNat :=
    (fold16_toNat_eq_foldNat_of_mod hmod hzero).trans (fold16_toNat_eq_foldNat y).symm
  rw [cksum16, cksum16, BitVec.eq_of_toNat_eq hfold]

theorem cksum16_eq_inetWords_of_mod {x : Word} {ws : List HWord}
    (hmod : x.toNat % 65535 = exactSum ws % 65535) (hzero : x.toNat = 0 ↔ exactSum ws = 0) :
    cksum16 x = inetWords ws := by
  rw [cksum16, inetWords, ← fold16_toNat_eq_foldNat_of_mod hmod hzero, BitVec.ofNat_toNat, BitVec.setWidth_eq]

/-- The complement of a checksum stands for the checksummed sum: it has its residue and its zero. -/
theorem complement_inetWords (ws : List HWord) :
    (0xFFFF - (inetWords ws).toNat) % 65535 = exactSum ws % 65535 ∧
      (0xFFFF - (inetWords ws).toNat = 0 ↔ exactSum ws = 0) := by
  have hlt := (fold16 (sumWords 0 ws)).isLt
  have hfold : 0xFFFF - (inetWords ws).toNat = foldNat (exactSum ws) := by
    rw [← cksum16_sumWords_zero, cksum16_toNat, ← fold16_sumWords_zero_toNat]
    omega
  rw [hfold]
  exact ⟨foldNat_mod _, foldNat_eq_zero_iff _⟩

theorem inetWords_eq_ones_iff (ws : List HWord) : inetWords ws = 0xFFFF ↔ ∀ w ∈ ws, w = 0 := by
  rw [← cksum16_sumWords_zero, cksum16_eq_ones_iff, sumWords_zero_eq_zero_iff]

/-- A non-zero word with the residue of a word list finishes to the list's checksum, unless the list is all zero: then
it is a positive multiple of `65535`, and the other zero comes out (R82). -/
theorem cksum16_setWidth_of_pos_of_mod {x : Word} {ws : List HWord} (hpos : 0 < x.toNat)
    (hmod : x.toNat % 65535 = exactSum ws % 65535) :
    ((∃ w ∈ ws, w ≠ 0) → (cksum16 x).setWidth 32 = (inetWords ws).setWidth 32) ∧
      ((∀ w ∈ ws, w = 0) → (cksum16 x).setWidth 32 = 0 ∧ inetWords ws = 0xFFFF) := by
  constructor
  · rintro ⟨w, hw, hne⟩
    have hsum : exactSum ws ≠ 0 := fun h => hne ((exactSum_eq_zero_iff ws).1 h w hw)
    rw [cksum16_eq_inetWords_of_mod hmod (by omega)]
  · intro hall
    have hsum : exactSum ws = 0 := (exactSum_eq_zero_iff ws).2 hall
    have hcksum : cksum16 x = 0 := (cksum16_eq_zero_iff x).2 ⟨hpos, by omega⟩
    rw [hcksum]
    exact ⟨rfl, (inetWords_eq_ones_iff ws).2 hall⟩

/-! ### The sum of `UPD2` (R80) -/

theorem upd2Sum_eq_zero_iff (hc old new : HWord) :
    upd2Sum hc old new = 0 ↔ hc = 0xFFFF ∧ old = 0xFFFF ∧ new = 0 := by
  have hh := hc.isLt
  have ho := old.isLt
  simp only [← BitVec.toNat_inj, upd2Sum_toNat, BitVec.reduceToNat]
  omega

/-- Replacing a word by itself turns the checksum's negative zero into zero and keeps every other checksum. -/
theorem cksum16_upd2Sum_self (hc v : HWord) : cksum16 (upd2Sum hc v v) = if hc = 0xFFFF then 0 else hc := by
  have hsum := upd2Sum_toNat hc v v
  have hh := hc.isLt
  have hv := v.isLt
  split
  · next hones =>
    have hval : hc.toNat = 65535 := congrArg BitVec.toNat hones
    rw [cksum16_eq_zero_iff]
    omega
  · next hne =>
    have hval : hc.toNat ≠ 65535 := fun h => hne (BitVec.eq_of_toNat_eq h)
    have hnz : upd2Sum hc v v ≠ 0 := fun h => hne ((upd2Sum_eq_zero_iff hc v v).1 h).1
    have hfold : ~~~hc = fold16 (upd2Sum hc v v) := by
      rw [eq_fold16_iff_of_ne_zero hnz, BitVec.toNat_not]
      omega
    rw [cksum16, ← hfold, BitVec.not_not]

/-- Settles O34: the answer is the finish of the three-term sum, so its values are those of `cksum16`, and each upper
half is a reserved field of the format. -/
theorem upd2AnswersUpdatedChecksum : Obligations.Upd2AnswersUpdatedChecksum := by
  refine ⟨fun hc old new => decode_ofNat_wordValue (.upd2 hc old new), fun hc old new s => ?_,
    fun hc old new => ?_, fun hc v => ?_, fun hc old new => ?_, fun w s hop hhalf => ?_⟩
  · rw [exec_upd2, cksum16_setWidth, upd2Sum_toNat]
    rfl
  · have hnew := new.isLt
    omega
  · rw [← upd2Sum_toNat, ← cksum16_toNat_eq_twoStepFold, cksum16_upd2Sum_self]
    split <;> rfl
  · rw [← upd2Sum_toNat, ← cksum16_toNat_eq_twoStepFold, ← upd2Sum_eq_zero_iff, ← cksum16_eq_ones_iff,
      BitVec.toNat_eq]
    rfl
  · obtain hne | hne := hhalf
    · exact issue_of_reserved_field_ne_zero (f := (88, 16)) (by rw [hop]; decide) hne s
    · exact issue_of_reserved_field_ne_zero (f := (56, 16)) (by rw [hop]; decide) hne s

/-! ### The sum of `UPD4` (R81) -/

theorem upd4Sum_eq_zero_iff (hc : HWord) (old new : Word) :
    upd4Sum hc old new = 0 ↔ hc = 0xFFFF ∧ old = 0xFFFFFFFF ∧ new = 0 := by
  have hh := hc.isLt
  have ho := old.isLt
  simp only [← BitVec.toNat_inj, upd4Sum_toNat, BitVec.reduceToNat]
  omega

/-- `UPD4` is two chained `UPD2`, the upper half first: folding in between keeps the residue and the zero. -/
theorem cksum16_upd4Sum (hc : HWord) (old new : Word) : cksum16 (upd4Sum hc old new) =
    cksum16 (upd2Sum (cksum16 (upd2Sum hc (hiHalf old) (hiHalf new))) (loHalf old) (loHalf new)) := by
  have hfirst := upd2Sum_toNat hc (hiHalf old) (hiHalf new)
  have hlt := (fold16 (upd2Sum hc (hiHalf old) (hiHalf new))).isLt
  have hmod := fold16_toNat_mod (upd2Sum hc (hiHalf old) (hiHalf new))
  have hzero := fold16_toNat_eq_zero_iff (upd2Sum hc (hiHalf old) (hiHalf new))
  rw [hiHalf_toNat, hiHalf_toNat] at hfirst
  apply cksum16_congr <;> rw [upd4Sum_toNat, upd2Sum_toNat, cksum16_toNat, loHalf_toNat, loHalf_toNat]
  · omega
  · omega

theorem cksum16_upd4Sum_self (hc : HWord) (v : Word) :
    cksum16 (upd4Sum hc v v) = if hc = 0xFFFF then 0 else hc := by
  rw [cksum16_upd4Sum, cksum16_upd2Sum_self, cksum16_upd2Sum_self]
  split <;> rfl

/-- Settles O35: the value is that of two chained `UPD2`, which gives the case of an unchanged field. -/
theorem upd4AnswersUpdatedChecksum : Obligations.Upd4AnswersUpdatedChecksum := by
  refine ⟨fun hc old new => decode_ofNat_wordValue (.upd4 hc old new), fun hc old new s => ?_, cksum16_upd4Sum,
    cksum16_upd4Sum_self, upd4Sum_eq_zero_iff, fun hc old new => ?_⟩
  · rw [exec_upd4, cksum16_setWidth, upd4Sum_toNat]
    rfl
  · have hnew := new.isLt
    rw [upd4Sum_toNat]
    omega

/-! ### Updating the checksum of data (R82) -/

theorem exactSum_replace_word (before after : List HWord) (w : HWord) :
    exactSum (before ++ w :: after) = exactSum before + exactSum after + w.toNat := by
  rw [exactSum_append, exactSum_cons]
  omega

theorem exactSum_replace_halves (before after : List HWord) (v : Word) :
    exactSum (before ++ halves v ++ after) =
      exactSum before + exactSum after + v.toNat / 2 ^ 16 + v.toNat % 2 ^ 16 := by
  rw [exactSum_append, exactSum_append, halves, exactSum_cons, exactSum_cons, exactSum_nil, hiHalf_toNat, loHalf_toNat]
  omega

/-- `UPD2` on the checksum of data that holds `old` folds a non-zero sum with the residue of the changed data: where
the checksum contributes nothing the data is all zero, so `old` is zero and its complement is not. -/
theorem upd2Sum_inetWords (before after : List HWord) (old new : HWord) :
    0 < (upd2Sum (inetWords (before ++ old :: after)) old new).toNat ∧
      (upd2Sum (inetWords (before ++ old :: after)) old new).toNat % 65535 =
        exactSum (before ++ new :: after) % 65535 := by
  obtain ⟨hmod, hzero⟩ := complement_inetWords (before ++ old :: after)
  have hold := old.isLt
  rw [exactSum_replace_word] at hmod hzero
  rw [upd2Sum_toNat, exactSum_replace_word]
  omega

theorem upd4Sum_inetWords (before after : List HWord) (old new : Word) :
    0 < (upd4Sum (inetWords (before ++ halves old ++ after)) old new).toNat ∧
      (upd4Sum (inetWords (before ++ halves old ++ after)) old new).toNat % 65535 =
        exactSum (before ++ halves new ++ after) % 65535 := by
  obtain ⟨hmod, hzero⟩ := complement_inetWords (before ++ halves old ++ after)
  have hold := old.isLt
  rw [exactSum_replace_halves] at hmod hzero
  rw [upd4Sum_toNat, exactSum_replace_halves]
  omega

/-- Settles O36: both updates fold a non-zero sum with the residue of the changed data. -/
theorem incrementalUpdateMatchesRecomputation : Obligations.IncrementalUpdateMatchesRecomputation := by
  constructor
  · intro before after old new s
    obtain ⟨hpos, hmod⟩ := upd2Sum_inetWords before after old new
    exact ⟨_, exec_upd2 _ old new s, cksum16_setWidth_of_pos_of_mod hpos hmod⟩
  · intro before after old new s
    obtain ⟨hpos, hmod⟩ := upd4Sum_inetWords before after old new
    exact ⟨_, exec_upd4 _ old new s, cksum16_setWidth_of_pos_of_mod hpos hmod⟩

end Sys2Proof.Machine
end

section
/-!
SUPPORT. The pseudo-header command (spec 43_pseudo_header.md): its six words are the pieces of four accumulate commands,
so it leaves the sum that they leave.
-/

namespace Sys2Proof.Machine

/-- The word `0x00 : proto` is the protocol number zero-extended (R90). -/
theorem protoWord_eq_ofNat (proto : Byte) : protoWord proto = BitVec.ofNat 16 proto.toNat := by
  have hzero : (0 : Byte).toNat * 256 + proto.toNat = proto.toNat := Nat.zero_add _
  rw [protoWord, be16, hzero]

/-- `ADD4 src; ADD4 dst; ADD2 (0x00 : proto); ADD2 L`, the commands whose effect `PHDR` has (R90). -/
def phdrAdds (src dst : Word) (proto : Byte) (hlen : HWord) (plen : Word) : List Instr :=
  [.add4 src, .add4 dst, .add2 (BitVec.ofNat 16 proto.toNat), .add2 (BitVec.ofNat 16 (hlen.toNat + plen.toNat))]

theorem flatMap_pieceOf_phdrAdds (src dst : Word) (proto : Byte) (hlen : HWord) (plen : Word) (s : State) :
    (phdrAdds src dst proto hlen plen).flatMap (pieceOf s) = phdrWords src dst proto hlen plen := by
  rw [phdrWords, protoWord_eq_ofNat]
  rfl

/-- The four commands need no frame, so they complete in every state, and `ACC` then has the pseudo-header's words. -/
theorem runAll_phdrAdds (src dst : Word) (proto : Byte) (hlen : HWord) (plen : Word) (s : State) :
    ∃ t, runAll (phdrAdds src dst proto hlen plen) s = .next t ∧
      t.acc = sumWords s.acc (phdrWords src dst proto hlen plen) := by
  obtain ⟨t, ht⟩ : ∃ t, runAll (phdrAdds src dst proto hlen plen) s = .next t := ⟨_, rfl⟩
  have hadd : ∀ i ∈ phdrAdds src dst proto hlen plen, accumulates i = true := by simp [phdrAdds, accumulates]
  refine ⟨t, ht, ?_⟩
  rw [runAll_acc_eq_sumWords hadd ht, flatMap_pieceOf_phdrAdds]

/-- Settles O37: a length above the limit is the error, and else the words added are those of the four commands. -/
theorem phdrAddsPseudoHeaderOrAnswersTooLarge : Obligations.PhdrAddsPseudoHeaderOrAnswersTooLarge := by
  refine ⟨fun src dst proto hlen plen => decode_ofNat_wordValue (.phdr src dst proto hlen plen),
    fun src dst proto hlen plen s => ⟨exec_phdr_tooLarge, fun hlength => ?_⟩⟩
  obtain ⟨t, hrun, hacc⟩ := runAll_phdrAdds src dst proto hlen plen s
  refine ⟨t, hrun, ?_⟩
  rw [exec_phdr_ok hlength, hacc]
  rfl

end Sys2Proof.Machine
end

section
/-!
SUPPORT. How a host's run of a sequence ends, and what the expansions of the pseudo-instructions are (spec
30_encoding.md R51, 44_compositions.md R101 to R104, R107).
-/

namespace Sys2Proof.Machine

/-! ### Runs whose responses are all `OK` (R51, R107) -/

/-- The commands run one after another from the first state to the second, each answering `OK`. -/
inductive OkRun : List Instr → State → State → Prop where
  | nil (s : State) : OkRun [] s s
  | cons {i : Instr} {is : List Instr} {s t u : State} (hexec : exec i s = .next u) (hok : u.lastOk = true)
      (hrun : OkRun is u t) : OkRun (i :: is) s t

theorem status_ok_of_lastOk {q : Response} {qs : List Response} {s : State} (hq : s.responses = q :: qs)
    (hok : s.lastOk = true) : q.status = .ok := by
  rw [State.lastOk, hq] at hok
  exact of_decide_eq_true hok

theorem OkRun.runAll_eq {is : List Instr} {s t : State} (h : OkRun is s t) : runAll is s = .next t := by
  induction h with
  | nil s => rfl
  | cons hexec _ _ ih => rw [runAll_cons hexec, ih]

/-- Each command of the run has put one `OK` response in front. -/
theorem OkRun.exists_responses {is : List Instr} {s t : State} (h : OkRun is s t) :
    ∃ qs : List Response, t.responses = qs ++ s.responses ∧ qs.length = is.length ∧ ∀ q ∈ qs, q.status = .ok := by
  induction h with
  | nil s => exact ⟨[], rfl, rfl, by simp⟩
  | cons hexec hok _ ih =>
    obtain ⟨qs, hqs, hlen, hall⟩ := ih
    obtain ⟨q, hq⟩ := exec_answers_once hexec
    refine ⟨qs ++ [q], by rw [hqs, hq, List.append_assoc, List.singleton_append], by simp [hlen], ?_⟩
    simpa [or_imp, forall_and, status_ok_of_lastOk hq hok] using hall

theorem OkRun.newest_ok {is : List Instr} {s t : State} (h : OkRun is s t) :
    ∀ q ∈ t.responses.take is.length, q.status = .ok := by
  obtain ⟨qs, hqs, hlen, hall⟩ := h.exists_responses
  rwa [hqs, ← hlen, List.take_left]

theorem OkRun.eq_or_lastOk {is : List Instr} {s t : State} (h : OkRun is s t) : t = s ∨ t.lastOk = true := by
  induction h with
  | nil s => exact .inl rfl
  | cons _ hok _ ih =>
    obtain rfl | ih := ih
    · exact .inr hok
    · exact .inr ih

theorem OkRun.fb_eq {is : List Instr} {s t : State} (hstf : ∀ i ∈ is, ∀ addr, i ≠ .stf addr) (h : OkRun is s t) :
    t.fb = s.fb := by
  induction h with
  | nil s => rfl
  | cons hexec _ _ ih =>
    obtain ⟨hi, his⟩ := List.forall_mem_cons.1 hstf
    obtain hfb | ⟨addr, haddr, -⟩ := exec_fb_cases hexec
    · rw [ih his, hfb]
    · exact absurd haddr (hi addr)

/-- How a host's run of a sequence ends: after its last command, or after the first error response (R107). -/
theorem runSeq_next_cases {is : List Instr} {s t : State} (h : runSeq is s = .next t) :
    OkRun is s t ∨ ∃ done i rest u, is = done ++ i :: rest ∧ OkRun done s u ∧ exec i u = .next t ∧
      t.lastOk = false := by
  induction is generalizing s with
  | nil => cases h; exact .inl (.nil _)
  | cons i is ih =>
    cases hexec : exec i s with
    | fault e => simp [runSeq, hexec] at h
    | refused r => simp [runSeq, hexec] at h
    | next u =>
      cases hok : u.lastOk with
      | false =>
        rw [runSeq_cons_error hexec hok] at h
        cases h
        exact .inr ⟨[], i, is, s, rfl, .nil s, hexec, hok⟩
      | true =>
        rw [runSeq_cons_ok hexec hok] at h
        obtain hrun | ⟨done, j, rest, v, rfl, hrun, hj, he⟩ := ih h
        · exact .inl (.cons hexec hok hrun)
        · exact .inr ⟨i :: done, j, rest, v, rfl, .cons hexec hok hrun, hj, he⟩

/-- A command whose response is an error has changed nothing else (R122). -/
theorem exec_error_raises {i : Instr} {s t : State} (h : exec i s = .next t) (he : t.lastOk = false) :
    ∃ e, t = s.raise e := by
  obtain hraise | ⟨-, rfl⟩ | ⟨-, rfl⟩ | ⟨v, -, rfl⟩ | ⟨addr, -, -, -, rfl⟩ := exec_next_cases h
  · exact hraise
  all_goals simp at he

/-- A sequence with no `STF` before its last command leaves every byte when it ends in an error. -/
theorem runSeq_error_fb_eq {is : List Instr} {s t : State} (hstf : ∀ i ∈ is.dropLast, ∀ addr, i ≠ .stf addr)
    (h : runSeq is s = .next t) (he : t.lastOk = false) : t.fb = s.fb := by
  obtain hrun | ⟨done, i, rest, u, rfl, hrun, hi, -⟩ := runSeq_next_cases h
  · obtain rfl | hok := hrun.eq_or_lastOk
    · rfl
    · simp [hok] at he
  · obtain ⟨e, rfl⟩ := exec_error_raises hi he
    rw [List.dropLast_append_cons] at hstf
    rw [State.raise_fb]
    exact hrun.fb_eq fun j hj => hstf j (List.mem_append_left _ hj)

/-! ### The expansions (R101 to R104) -/

theorem ite_error_eq_ok_iff {p : Prop} [Decidable p] {e : AsmError} {is js : List Instr} :
    (if p then Except.error e else Except.ok js) = .ok is ↔ ¬p ∧ js = is := by
  split <;> simp [*]

theorem ipv4sum_expand_iff {base hsize : Word} {is : List Instr} :
    (Pseudo.ipv4sum base hsize).expand = .ok is ↔ 12 ≤ hsize.toNat ∧ ipv4Body base hsize .fin = is := by
  rw [Pseudo.expand, ite_error_eq_ok_iff, Nat.not_lt]

theorem ipv4upd_expand_iff {base hsize : Word} {is : List Instr} :
    (Pseudo.ipv4upd base hsize).expand = .ok is ↔
      12 ≤ hsize.toNat ∧ ipv4Body base hsize (stfAt (base.toNat + 10)) = is := by
  rw [Pseudo.expand, ite_error_eq_ok_iff, Nat.not_lt]

theorem ipv4chk_expand_iff {base hsize : Word} {is : List Instr} :
    (Pseudo.ipv4chk base hsize).expand = .ok is ↔ [.clr, .adds base hsize, .fin] = is := by
  rw [Pseudo.expand, Except.ok.injEq]

/-- The commands of `TCPSUM` (R104). -/
def tcpBody (src dst base hsize pbase plen : Word) : List Instr :=
  [.clr, tcpHeader src dst hsize.toNat plen, .adds base 16,
    addsAt (base.toNat + 18) (BitVec.ofNat 32 (hsize.toNat - 18)), .adds pbase plen, .fin]

theorem tcpsum_expand_iff {src dst base hsize pbase plen : Word} {is : List Instr} :
    (Pseudo.tcpsum src dst base hsize pbase plen).expand = .ok is ↔
      18 ≤ hsize.toNat ∧ tcpBody src dst base hsize pbase plen = is := by
  rw [Pseudo.expand, ite_error_eq_ok_iff, Nat.not_lt]
  rfl

theorem addsAt_ne_stf (base : Nat) (len addr : Word) : addsAt base len ≠ .stf addr := by
  rw [addsAt]
  split <;> simp

theorem tcpHeader_ne_stf (src dst : Word) (hsize : Nat) (plen addr : Word) :
    tcpHeader src dst hsize plen ≠ .stf addr := by
  rw [tcpHeader]
  split <;> simp

/-- Only the last command of an expansion can be an `STF`. -/
theorem expand_stf_only_last {p : Pseudo} {is : List Instr} (h : p.expand = .ok is) :
    ∀ i ∈ is.dropLast, ∀ addr, i ≠ .stf addr := by
  cases p with
  | ipv4sum base hsize =>
    obtain ⟨-, rfl⟩ := ipv4sum_expand_iff.1 h
    simp [ipv4Body, addsAt_ne_stf]
  | ipv4upd base hsize =>
    obtain ⟨-, rfl⟩ := ipv4upd_expand_iff.1 h
    simp [ipv4Body, addsAt_ne_stf]
  | ipv4chk base hsize =>
    obtain rfl := ipv4chk_expand_iff.1 h
    simp
  | tcpsum src dst base hsize pbase plen =>
    obtain ⟨-, rfl⟩ := tcpsum_expand_iff.1 h
    simp [tcpBody, addsAt_ne_stf, tcpHeader_ne_stf]

/-- Settles O50: a run ends after its last `OK` or at its first error, and no command before the last one of an
expansion writes a byte. -/
theorem pseudoStopsAtFirstError : Obligations.PseudoStopsAtFirstError := by
  constructor
  · intro is s t h
    obtain hrun | ⟨done, i, rest, u, his, hrun, hi, he⟩ := runSeq_next_cases h
    · exact .inl ⟨hrun.runAll_eq, hrun.newest_ok⟩
    · exact .inr ⟨done, i, rest, u, his, hrun.runAll_eq, hrun.newest_ok, hi, he⟩
  · intro p is s t hp h he a
    rw [runSeq_error_fb_eq (expand_stf_only_last hp) h he]

end Sys2Proof.Machine
end

section
/-!
SUPPORT. The pseudo-instructions over a header or a payload that is not inside `FB` (spec 44_compositions.md R106,
R107): `Answers` says how such a run ends, with a rule for each command an expansion has.
-/

namespace Sys2Proof.Machine

/-! ### Runs that write no byte -/

/-- The host's run of the sequence completes with the response, and writes no byte of `FB`. -/
def Answers (is : List Instr) (s : State) (q : Response) : Prop :=
  ∃ t, runSeq is s = .next t ∧ t.fb = s.fb ∧ t.responses.head? = some q

section
variable {i : Instr} {is : List Instr} {s t : State} {q : Response}

theorem answers_cons_ok (hexec : exec i s = .next t) (hok : t.lastOk = true) (hfb : t.fb = s.fb)
    (h : Answers is t q) : Answers (i :: is) s q := by
  obtain ⟨u, hrun, hu, hq⟩ := h
  exact ⟨u, (runSeq_cons_ok hexec hok).trans hrun, hu.trans hfb, hq⟩

theorem answers_cons_error {e : CmdError} (hexec : exec i s = .next (s.raise e)) :
    Answers (i :: is) s ⟨e.status, 0⟩ :=
  ⟨_, runSeq_cons_error hexec (State.raise_lastOk e s), rfl, rfl⟩

theorem answers_clr (h : Answers is ((s.setAcc 0).respond 0) q) : Answers (.clr :: is) s q :=
  answers_cons_ok (exec_clr s) rfl rfl h

theorem answers_fin : Answers [.fin] s ⟨.ok, (cksum16 s.acc).setWidth 32⟩ :=
  answers_cons_ok (exec_fin_answered s) rfl rfl ⟨_, rfl, rfl, rfl⟩

/-- A command that adds words and answers `OK` is followed by the rest of the sequence. -/
theorem answers_add {ws : List HWord} (hexec : exec i s = .next ((s.accAdd ws).respond 0))
    (h : Answers is ((s.accAdd ws).respond 0) q) : Answers (i :: is) s q :=
  answers_cons_ok hexec rfl rfl h

/-- An `ADDS` ends the run with `E_BOUNDS` unless its window is inside; then it goes on. -/
theorem answers_bounds_adds {base len : Word} (hl : s.loaded = true)
    (h : base.toNat + len.toNat ≤ s.fbLen → ∀ ws, Answers is ((s.accAdd ws).respond 0) ⟨.eBounds, 0⟩) :
    Answers (.adds base len :: is) s ⟨.eBounds, 0⟩ := by
  obtain hw | hw := le_or_gt (base.toNat + len.toNat) s.fbLen
  · exact answers_add (exec_adds_inside hl hw) (h hw _)
  · exact answers_cons_error (exec_adds_outside hl hw)

/-- So does an `ADDS` at an exact address, over any frame that does not hold the largest window of all. -/
theorem answers_bounds_addsAt {base : Nat} {len : Word} (hl : s.loaded = true) (hlen : s.fbLen < 2 ^ 33 - 2)
    (h : base + len.toNat ≤ s.fbLen → ∀ ws, Answers is ((s.accAdd ws).respond 0) ⟨.eBounds, 0⟩) :
    Answers (addsAt base len :: is) s ⟨.eBounds, 0⟩ := by
  rw [addsAt]
  split
  · next fits =>
    have value : (BitVec.ofNat 32 base).toNat = base := Nat.mod_eq_of_lt fits
    exact answers_bounds_adds hl (by rwa [value])
  · have top : (0xFFFFFFFF : Word).toNat = 2 ^ 32 - 1 := rfl
    exact answers_cons_error (exec_adds_outside hl (by omega))

end

/-! ### Outside the frame (R106, R107) -/

/-- The length operand of an expansion, a part of a 32-bit size, fits its field. -/
theorem ofNat_sub_toNat (size : Word) (k : Nat) : (BitVec.ofNat 32 (size.toNat - k)).toNat = size.toNat - k :=
  Nat.mod_eq_of_lt (Nat.lt_of_le_of_lt (Nat.sub_le _ _) size.isLt)

/-- A header not inside `FB` does not get past the second `ADDS`, whatever comes last. -/
theorem answers_ipv4Body_outside {s : State} {base hsize : Word} (hl : s.loaded = true) (hsz : 12 ≤ hsize.toNat)
    (hw : s.fbLen < base.toNat + hsize.toNat) (last : Instr) :
    Answers (ipv4Body base hsize last) s ⟨.eBounds, 0⟩ := by
  have hb := base.isLt
  have hh := hsize.isLt
  have hlen : s.fbLen < 2 ^ 33 - 2 := by omega
  refine answers_clr (answers_bounds_adds hl fun _ _ => answers_bounds_addsAt hl hlen
    fun (hin : base.toNat + 12 + (BitVec.ofNat 32 (hsize.toNat - 12)).toNat ≤ s.fbLen) => ?_)
  rw [ofNat_sub_toNat] at hin
  omega

/-- Settles O51: each expansion of a header not inside `FB` stops at an `ADDS`. -/
theorem ipv4OutsideFrameAnswersBounds : Obligations.Ipv4OutsideFrameAnswersBounds := by
  constructor
  · intro base hsize
    simp [ipv4sum_expand_iff, ipv4upd_expand_iff, ipv4chk_expand_iff]
  · intro s base hsize p is hl hp his hw
    obtain rfl | rfl | rfl := hp
    · obtain ⟨hsz, rfl⟩ := ipv4sum_expand_iff.1 his
      exact answers_ipv4Body_outside hl hsz hw _
    · obtain ⟨hsz, rfl⟩ := ipv4upd_expand_iff.1 his
      exact answers_ipv4Body_outside hl hsz hw _
    · obtain rfl := ipv4chk_expand_iff.1 his
      exact answers_clr (answers_cons_error (exec_adds_outside (s := (s.setAcc 0).respond 0) hl hw))

/-- A segment not inside `FB` whose length is legal does not get past the last `ADDS`. -/
theorem answers_tcpBody_outside {s : State} {src dst base hsize pbase plen : Word} (hl : s.loaded = true)
    (hsz : 18 ≤ hsize.toNat) (hlength : hsize.toNat + plen.toNat ≤ 65535)
    (hw : s.fbLen < base.toNat + hsize.toNat ∨ s.fbLen < pbase.toNat + plen.toNat) :
    Answers (tcpBody src dst base hsize pbase plen) s ⟨.eBounds, 0⟩ := by
  have hb := base.isLt
  have hh := hsize.isLt
  have hpb := pbase.isLt
  have hlen : s.fbLen < 2 ^ 33 - 2 := by omega
  refine answers_clr (answers_add (exec_tcpHeader_ok hlength) (answers_bounds_adds hl fun _ _ =>
    answers_bounds_addsAt hl hlen
      fun (hhead : base.toNat + 18 + (BitVec.ofNat 32 (hsize.toNat - 18)).toNat ≤ s.fbLen) _ =>
        answers_bounds_adds hl fun (hload : pbase.toNat + plen.toNat ≤ s.fbLen) => ?_))
  rw [ofNat_sub_toNat] at hhead
  omega

/-- Settles O60: `PHDR` answers for the length before any window is looked at, and of a segment not inside `FB` some
`ADDS` is outside. -/
theorem tcpOutsideFrameAnswersError : Obligations.TcpOutsideFrameAnswersError := by
  constructor
  · intro src dst base hsize pbase plen
    simp [tcpsum_expand_iff]
  · intro s src dst base hsize pbase plen is hl his hw
    obtain ⟨hsz, rfl⟩ := tcpsum_expand_iff.1 his
    split
    · next hlength => exact answers_clr (answers_cons_error (exec_tcpHeader_tooLarge hlength))
    · next hlength => exact answers_tcpBody_outside hl hsz (by omega) hw

end Sys2Proof.Machine
end

section
/-!
SUPPORT. The pseudo-instructions inside `FB` (spec 44_compositions.md R100 to R105).

An expansion is a `CLR`, commands that add words, and a finishing command, so its answer is the checksum of the words
added.
-/

namespace Sys2Proof.Machine

/-! ### The words of a header (R100) -/

theorem Memory.windowBytes_length (m : Memory) (a n : Nat) : (Memory.windowBytes m a n).length = n := by
  induction n generalizing a with
  | zero => rfl
  | succ n ih => rw [Memory.windowBytes, List.length_cons, ih]

/-- Byte strings put together at an even offset have their words put together (R66). -/
theorem wordsOf_append {bs cs : List Byte} (heven : bs.length % 2 = 0) :
    wordsOf (bs ++ cs) = wordsOf bs ++ wordsOf cs := by
  induction bs using wordsOf.induct with
  | case1 => rfl
  | case2 b => simp at heven
  | case3 b0 b1 rest ih =>
    have hrest : rest.length % 2 = 0 := by
      rw [List.length_cons, List.length_cons] at heven
      omega
    rw [List.cons_append, List.cons_append, wordsOf, wordsOf, ih hrest, List.cons_append]

/-- The words of an IPv4 header without its checksum field. -/
def headerWords (m : Memory) (base hsize : Nat) : List HWord :=
  Memory.windowWords m base 10 ++ Memory.windowWords m (base + 12) (hsize - 12)

theorem wordsOf_header (m : Memory) (base hsize : Nat) : wordsOf (Memory.windowBytes m base 10 ++
    Memory.windowBytes m (base + 12) (hsize - 12)) = headerWords m base hsize := by
  rw [wordsOf_append (by rw [Memory.windowBytes_length]), wordsOf_windowBytes, wordsOf_windowBytes, headerWords]

theorem inet_header (m : Memory) (base hsize : Nat) : inet (Memory.windowBytes m base 10 ++
    Memory.windowBytes m (base + 12) (hsize - 12)) = inetWords (headerWords m base hsize) := by
  rw [inet, wordsOf_header]

/-- A zero word adds nothing to a checksum. -/
theorem inet_insert_zero_word {bs cs : List Byte} (heven : bs.length % 2 = 0) :
    inet (bs ++ [0, 0] ++ cs) = inet (bs ++ cs) := by
  have hsum : exactSum (wordsOf (bs ++ [0, 0] ++ cs)) = exactSum (wordsOf (bs ++ cs)) := by
    rw [List.append_assoc, wordsOf_append heven, wordsOf_append heven, exactSum_append, exactSum_append]
    exact congrArg _ (Nat.zero_add _)
  rw [inet, inet, inetWords, inetWords, hsum]

/-- A whole header's words are the word of its checksum field amid the others. -/
theorem Memory.windowWords_header {m : Memory} {base hsize : Nat} (hsz : 12 ≤ hsize) :
    Memory.windowWords m base hsize = Memory.windowWords m base 10 ++
      (be16 (Memory.read m (base + 10)) (Memory.read m (base + 11)) ::
        Memory.windowWords m (base + 12) (hsize - 12)) := by
  have hfield : Memory.windowWords m (base + 10) 2 =
      [be16 (Memory.read m (base + 10)) (Memory.read m (base + 11))] := by
    rw [Memory.windowWords_eq_map]
    rfl
  obtain ⟨n, rfl⟩ : ∃ n, hsize = 10 + (2 + n) := ⟨hsize - 12, by omega⟩
  rw [Memory.windowWords_add rfl, Memory.windowWords_add rfl, hfield,
    show 10 + (2 + n) - 12 = n by omega]
  rfl

theorem exactSum_windowWords_header {m : Memory} {base hsize : Nat} (hsz : 12 ≤ hsize) :
    exactSum (Memory.windowWords m base hsize) = exactSum (headerWords m base hsize) +
      (be16 (Memory.read m (base + 10)) (Memory.read m (base + 11))).toNat := by
  rw [Memory.windowWords_header hsz, exactSum_append, exactSum_cons, headerWords, exactSum_append]
  omega

/-- The checksum field is not among the words that are summed for it. -/
theorem headerWords_memWrite (m : Memory) (base hsize v : Nat) :
    headerWords (Memory.memWrite m (base + 10) 2 v) base hsize = headerWords m base hsize := by
  rw [headerWords, Memory.windowWords_congr fun a _ ha => Memory.read_memWrite_other (by omega),
    Memory.windowWords_congr fun a ha _ => Memory.read_memWrite_other (by omega), headerWords]

/-! ### The IPv4 expansions inside the frame (R101 to R103) -/

section
variable {s : State} {base hsize : Word} (hl : s.loaded = true) (hlen : s.fbLen ≤ Config.fbLenMax)
  (hsz : 12 ≤ hsize.toNat) (hw : base.toNat + hsize.toNat ≤ s.fbLen)
include hl hlen hsz hw

/-- The finishing command runs on the sum of the header's words, over the frame as it was. -/
theorem runSeq_ipv4Body (last : Instr) : ∃ t, runSeq (ipv4Body base hsize last) s = runSeq [last] t ∧
    t.acc = sumWords 0 (headerWords s.fb base.toNat hsize.toNat) ∧ t.fb = s.fb ∧ t.fbLen = s.fbLen ∧
    t.loaded = true := by
  have hrest := ofNat_sub_toNat hsize 12
  have hfirst : base.toNat + 10 ≤ s.fbLen := by omega
  have hsecond : base.toNat + 12 + (BitVec.ofNat 32 (hsize.toNat - 12)).toNat ≤ s.fbLen := by omega
  refine ⟨_, ((runSeq_cons_ok (exec_clr s) rfl).trans (runSeq_cons_ok (exec_adds_inside hl hfirst) rfl)).trans
    (runSeq_cons_ok (exec_addsAt_inside hl (Nat.lt_succ_of_le hlen) hsecond) rfl), ?_, rfl, rfl, hl⟩
  rw [hrest, headerWords, sumWords_append]
  rfl

/-- `IPV4SUM` answers the header's checksum (R101). -/
theorem answers_ipv4sum : Answers (ipv4Body base hsize .fin) s
    ⟨.ok, (inetWords (headerWords s.fb base.toNat hsize.toNat)).setWidth 32⟩ := by
  obtain ⟨t, hrun, hacc, hfb, -⟩ := runSeq_ipv4Body hl hlen hsz hw .fin
  refine ⟨_, hrun.trans (runSeq_cons_ok (exec_fin_answered t) rfl), hfb, ?_⟩
  rw [hacc, cksum16_sumWords_zero]
  rfl

/-- `IPV4UPD` answers the header's checksum and stores it in its field (R102). -/
theorem runSeq_ipv4upd : ∃ t, runSeq (ipv4Body base hsize (stfAt (base.toNat + 10))) s = .next t ∧
    t.fb = Memory.memWrite s.fb (base.toNat + 10) 2 (inetWords (headerWords s.fb base.toNat hsize.toNat)).toNat ∧
    t.responses.head? = some ⟨.ok, (inetWords (headerWords s.fb base.toNat hsize.toNat)).setWidth 32⟩ ∧
    t.fbLen = s.fbLen ∧ t.loaded = true := by
  obtain ⟨t, hrun, hacc, hfb, htlen, htl⟩ := runSeq_ipv4Body hl hlen hsz hw (stfAt (base.toNat + 10))
  have fits : base.toNat + 10 < 2 ^ 32 := by
    have hmax : Config.fbLenMax = 2 ^ 32 - 1 := rfl
    omega
  have value : (BitVec.ofNat 32 (base.toNat + 10)).toNat = base.toNat + 10 := Nat.mod_eq_of_lt fits
  have hstf := exec_stf_inside (addr := BitVec.ofNat 32 (base.toNat + 10)) htl (by omega)
  rw [stfAt_of_fits fits] at hrun ⊢
  refine ⟨_, hrun.trans (runSeq_cons_ok hstf rfl), ?_, ?_, htlen, htl⟩
  · rw [State.respond_fb, State.store_fb, value, hfb, hacc, cksum16_sumWords_zero]
  · rw [State.respond_responses, List.head?_cons, hacc, cksum16_sumWords_zero]

end

/-- Settles O46: the words added are those of the header without its field, and the field as zero would add nothing. -/
theorem ipv4SumIsHeaderChecksum : Obligations.Ipv4SumIsHeaderChecksum := by
  intro s base hsize hl hs hsz hw
  obtain ⟨t, hrun, hfb, hq⟩ := answers_ipv4sum hl hs.lenBound hsz hw
  refine ⟨_, t, ipv4sum_expand_iff.2 ⟨hsz, rfl⟩, hrun, hfb, ?_, ?_⟩
  · rw [inet_header, hq]
  · exact inet_insert_zero_word (by rw [Memory.windowBytes_length])

/-- Writing the same bytes again changes nothing. -/
theorem Memory.read_memWrite_twice {m : Memory} (hm : Memory.wf m = true) (a n v x : Nat) :
    Memory.read (Memory.memWrite (Memory.memWrite m a n v) a n v) x = Memory.read (Memory.memWrite m a n v) x := by
  rw [Memory.memWrite, Memory.read_writeBytes (Memory.memWrite_wf hm)]
  split
  · next hin => rw [Memory.memWrite, Memory.read_writeBytes hm, if_pos hin]
  · rfl

/-- Settles O47: the second run sums the same words, since the field is not among them, and stores the same bytes. -/
theorem ipv4UpdateIsIdempotent : Obligations.Ipv4UpdateIsIdempotent := by
  intro s base hsize hl hs hsz hw
  obtain ⟨t, hrun, hfb, hq, htlen, htl⟩ := runSeq_ipv4upd hl hs.lenBound hsz hw
  obtain ⟨u, hrun', hfb', hq', -⟩ := runSeq_ipv4upd htl (by rw [htlen]; exact hs.lenBound) hsz (by rwa [htlen])
  have hsame : headerWords t.fb base.toNat hsize.toNat = headerWords s.fb base.toNat hsize.toNat := by
    rw [hfb, headerWords_memWrite]
  rw [hsame] at hfb' hq'
  refine ⟨_, t, u, ipv4upd_expand_iff.2 ⟨hsz, rfl⟩, hrun, ⟨_, rfl, ?_, ?_, ?_⟩, ?_, hrun', hq'.trans hq.symm, ?_⟩
  · rw [inet_header, hq]
  · rw [inet_header, hfb, Memory.read_memWrite_high hs.canonical]
  · rw [inet_header, hfb]
    exact Memory.read_memWrite_low hs.canonical (base.toNat + 10) _
  · intro a hhigh hlow
    rw [hfb]
    exact Memory.read_memWrite_other (by omega)
  · intro a
    rw [hfb', hfb, Memory.read_memWrite_twice hs.canonical]

/-! ### The IPv4 check (R103) -/

/-- For every size, `IPV4CHK` answers the checksum of its window. -/
theorem answers_ipv4chk {s : State} {base hsize : Word} (hl : s.loaded = true)
    (hw : base.toNat + hsize.toNat ≤ s.fbLen) : Answers [.clr, .adds base hsize, .fin] s
      ⟨.ok, (inetWords (Memory.windowWords s.fb base.toNat hsize.toNat)).setWidth 32⟩ := by
  rw [← cksum16_sumWords_zero]
  exact answers_clr (answers_add (exec_adds_inside hl hw) answers_fin)

theorem inetWords_eq_zero_iff (ws : List HWord) :
    inetWords ws = 0 ↔ exactSum ws ≠ 0 ∧ exactSum ws % 65535 = 0 := by
  obtain ⟨hmod, hzero⟩ := complement_inetWords ws
  have hlt := (inetWords ws).isLt
  have h0 : (0 : HWord).toNat = 0 := rfl
  rw [BitVec.toNat_eq, h0]
  omega

/-- A word that completes a sum to a multiple of `65535` is its checksum, up to the two zeros. -/
theorem eq_inetWords_or_zeros {ws : List HWord} {c : HWord} (h : (exactSum ws + c.toNat) % 65535 = 0) :
    c = inetWords ws ∨ (c = 0 ∧ inetWords ws = 0xFFFF) ∨ (c = 0xFFFF ∧ inetWords ws = 0) := by
  obtain ⟨hmod, hzero⟩ := complement_inetWords ws
  have hc := c.isLt
  have hlt := (inetWords ws).isLt
  simp only [← BitVec.toNat_inj, BitVec.reduceToNat]
  omega

/-- A header that holds its own checksum finishes to zero. -/
theorem inetWords_stored_header {m : Memory} (hm : Memory.wf m = true) {base hsize : Nat} (hsz : 12 ≤ hsize) :
    inetWords (Memory.windowWords
      (Memory.memWrite m (base + 10) 2 (inetWords (headerWords m base hsize)).toNat) base hsize) = 0 := by
  obtain ⟨hmod, hzero⟩ := complement_inetWords (headerWords m base hsize)
  have hlt := (inetWords (headerWords m base hsize)).isLt
  rw [inetWords_eq_zero_iff, exactSum_windowWords_header hsz, headerWords_memWrite, Memory.read_memWrite_high hm,
    Memory.read_memWrite_low hm, be16_extractLsb']
  omega

/-- Settles O48: the sum of the whole header is that of its other words and the stored one, and it finishes to zero
exactly when the stored word completes it to a positive multiple of `65535`. -/
theorem ipv4CheckVerifiesUpdate : Obligations.Ipv4CheckVerifiesUpdate := by
  refine ⟨fun s base hsize hl hs hsz hw => ?_, fun s base hsize hl hsz hw => ?_, fun s base hsize hl hw => ?_⟩
  · obtain ⟨t, hrun, hfb, -, htlen, htl⟩ := runSeq_ipv4upd hl hs.lenBound hsz hw
    obtain ⟨u, hrun', -, hq⟩ := answers_ipv4chk htl (by rwa [htlen])
    rw [hfb, inetWords_stored_header hs.canonical hsz] at hq
    exact ⟨_, _, t, u, ipv4upd_expand_iff.2 ⟨hsz, rfl⟩, rfl, hrun, hrun', hq⟩
  · obtain ⟨u, hrun, -, hq⟩ := answers_ipv4chk hl hw
    refine ⟨_, u, rfl, hrun, fun hok => ⟨_, _, rfl, rfl, ?_⟩⟩
    have hzero : inetWords (Memory.windowWords s.fb base.toNat hsize.toNat) = 0 := by
      have hvalue := congrArg Response.value (Option.some.inj (hq.symm.trans hok))
      simpa using congrArg (BitVec.setWidth 16) hvalue
    rw [inetWords_eq_zero_iff, exactSum_windowWords_header hsz] at hzero
    rw [inet_header]
    exact eq_inetWords_or_zeros hzero.2
  · obtain ⟨u, hrun, hfb, hq⟩ := answers_ipv4chk hl hw
    exact ⟨_, u, rfl, hrun, hfb, by rw [hq, inet, wordsOf_windowBytes]⟩

/-! ### The TCP segment inside the frame (R104) -/

/-- The words of a TCP segment's pseudo-header, of its header without the checksum field, and of its payload. -/
def segmentWords (m : Memory) (src dst base hsize pbase plen : Word) : List HWord :=
  phdrWords src dst 6 (BitVec.ofNat 16 hsize.toNat) plen ++ Memory.windowWords m base.toNat 16 ++
    Memory.windowWords m (base.toNat + 18) (hsize.toNat - 18) ++ Memory.windowWords m pbase.toNat plen.toNat

/-- A header size that fits its operand stands in the length word as it is (R90). -/
theorem phdrWords_tcp (src dst plen : Word) {hsize : Nat} (hsz : hsize ≤ 65535) :
    phdrWords src dst 6 (BitVec.ofNat 16 hsize) plen =
      [hiHalf src, loHalf src, hiHalf dst, loHalf dst, 0x0006, BitVec.ofNat 16 (hsize + plen.toNat)] := by
  have value : (BitVec.ofNat 16 hsize).toNat = hsize := Nat.mod_eq_of_lt (Nat.lt_succ_of_le hsz)
  rw [phdrWords, value]
  rfl

/-- `TCPSUM` of a segment of legal length answers the checksum of its words (R104). -/
theorem answers_tcpBody {s : State} {src dst base hsize pbase plen : Word} (hl : s.loaded = true)
    (hlen : s.fbLen ≤ Config.fbLenMax) (hsz : 18 ≤ hsize.toNat) (hlength : hsize.toNat + plen.toNat ≤ 65535)
    (hw : base.toNat + hsize.toNat ≤ s.fbLen) (hpw : pbase.toNat + plen.toNat ≤ s.fbLen) :
    Answers (tcpBody src dst base hsize pbase plen) s
      ⟨.ok, (inetWords (segmentWords s.fb src dst base hsize pbase plen)).setWidth 32⟩ := by
  have hrest := ofNat_sub_toNat hsize 18
  have hfirst : base.toNat + 16 ≤ s.fbLen := by omega
  have hsecond : base.toNat + 18 + (BitVec.ofNat 32 (hsize.toNat - 18)).toNat ≤ s.fbLen := by omega
  rw [← cksum16_sumWords_zero, segmentWords, sumWords_append, sumWords_append, sumWords_append, ← hrest]
  exact answers_clr (answers_add (exec_tcpHeader_ok hlength) (answers_add (exec_adds_inside hl hfirst)
    (answers_add (exec_addsAt_inside hl (Nat.lt_succ_of_le hlen) hsecond)
      (answers_add (exec_adds_inside hl hpw) answers_fin))))

/-- Settles O49: a length above the limit stops at `PHDR`, and else the words of every part are added. -/
theorem tcpSumIsSegmentChecksum : Obligations.TcpSumIsSegmentChecksum := by
  intro s src dst base hsize pbase plen hl hs hsz hw hpw
  rw [wordsOf_windowBytes, wordsOf_windowBytes, wordsOf_windowBytes]
  obtain hlength | hlength := Nat.lt_or_ge 65535 (hsize.toNat + plen.toNat)
  · rw [if_pos hlength]
    obtain ⟨t, ht⟩ : Answers (tcpBody src dst base hsize pbase plen) s ⟨.eTooLarge, 0⟩ :=
      answers_clr (answers_cons_error (exec_tcpHeader_tooLarge hlength))
    exact ⟨_, t, tcpsum_expand_iff.2 ⟨hsz, rfl⟩, ht⟩
  · rw [if_neg hlength.not_gt, ← phdrWords_tcp src dst plen (by omega)]
    obtain ⟨t, ht⟩ := answers_tcpBody hl hs.lenBound hsz hlength hw hpw
    exact ⟨_, t, tcpsum_expand_iff.2 ⟨hsz, rfl⟩, ht⟩

end Sys2Proof.Machine
end

section
/-!
SUPPORT. Errors and completion (spec 60_exceptions.md, 70_reset_and_hazards.md R141 to R143): which words answer, which
error each answers and why, and that the moves of a host that keeps its duties are all carried out.
-/

namespace Sys2Proof.Machine

open Sys2Proof.Spec

/-! ### Which commands answer (R133, R141) -/

/-- A command answers unless it reaches the frame before the load. -/
theorem exec_answers_iff {i : Instr} {s : State} :
    (∃ t, exec i s = .next t) ↔ s.loaded = true ∨ needsFrame i = false := by
  constructor
  · rintro ⟨t, h⟩
    cases i with
    | adds base len => exact .inl (exec_adds_next.1 h).1
    | stf addr => exact .inl (exec_stf_next.1 h).1
    | clr | add2 | add4 | fin | rda | upd2 | upd4 | phdr => exact .inr rfl
  · rintro (hl | hn)
    · exact exec_of_loaded hl i
    · obtain ⟨t, ht⟩ := exec_of_loaded (s := { s with loaded := true }) rfl i
      exact ⟨_, otherCommandsIgnoreTheFrame i { s with loaded := true } t s.fb s.fbLen s.loaded hn ht⟩

/-- The host's duty on a word is what issuing it needs to answer. -/
theorem issue_answers_iff {w : CmdWord} {s : State} :
    (∃ t, issue w s = .next t) ↔ mayIssue s.loaded w = true := by
  cases hd : decode w with
  | ok i => simp only [issue_ok hd, exec_answers_iff, mayIssue, hd, Bool.or_eq_true, Bool.not_eq_true']
  | error e => simp [issue_error hd, mayIssue, hd]

/-! ### The host's duties, and the work they leave -/

theorem obeys_poke_iff {loaded : Bool} {fbLen addr : Nat} {bytes : List Byte} {ms : List HostMove} :
    obeys loaded fbLen (.poke addr bytes :: ms) = true ↔
      loaded = true ∧ addr + bytes.length ≤ fbLen ∧ obeys loaded fbLen ms = true := by
  simp [obeys, windowAdmitted_iff, and_assoc]

theorem obeys_load_iff {loaded : Bool} {fbLen : Nat} {bytes : List Byte} {ms : List HostMove} :
    obeys loaded fbLen (.load bytes :: ms) = true ↔
      bytes.length ≤ Config.fbLenMax ∧ obeys true bytes.length ms = true := by
  simp [obeys]

theorem obeys_command_iff {loaded : Bool} {fbLen : Nat} {w : CmdWord} {ms : List HostMove} :
    obeys loaded fbLen (.command w :: ms) = true ↔
      mayIssue loaded w = true ∧ obeys loaded fbLen ms = true := by
  simp [obeys]

theorem obeys_sequence_iff {loaded : Bool} {fbLen : Nat} {ws : List CmdWord} {ms : List HostMove} :
    obeys loaded fbLen (.sequence ws :: ms) = true ↔
      (∀ w ∈ ws, mayIssue loaded w = true) ∧ obeys loaded fbLen ms = true := by
  simp [obeys]

theorem obeys_pushSequence_iff {loaded : Bool} {fbLen : Nat} {ws : List CmdWord} {ms : List HostMove} :
    obeys loaded fbLen (pushSequence ws ms) = true ↔
      (∀ w ∈ ws, mayIssue loaded w = true) ∧ obeys loaded fbLen ms = true := by
  cases ws with
  | nil => simp [pushSequence]
  | cons w ws => exact obeys_sequence_iff

theorem work_pushSequence (ws : List CmdWord) (ms : List HostMove) :
    work (pushSequence ws ms) = ws.length + work ms := by
  cases ws with
  | nil => simp [pushSequence]
  | cons w ws => simp [pushSequence, work, moveWork]

theorem moveWork_pos (m : HostMove) : 0 < moveWork m := by
  cases m <;> simp [moveWork]

theorem work_eq_zero_iff {ms : List HostMove} : work ms = 0 ↔ ms = [] := by
  cases ms with
  | nil => simp [work]
  | cons m ms =>
    have hpos := moveWork_pos m
    simp only [work, reduceCtorEq, iff_false]
    omega

/-! ### An obedient host's next move -/

/-- A word the host may issue keeps the duties and the moves still to come. -/
theorem issue_obedient {w : CmdWord} {s : State} (hw : mayIssue s.loaded w = true) (hs : s.hostObeys = true) :
    ∃ t, issue w s = .next t ∧ t.hostObeys = true ∧ t.inputs = s.inputs := by
  obtain ⟨t, ht⟩ := issue_answers_iff.2 hw
  obtain ⟨hin, hlen, hl⟩ := issue_keeps_launch ht
  exact ⟨t, ht, by rwa [State.hostObeys, hl, hlen, hin], hin⟩

/-- A sequence of words the host may issue leaves at most its other words to issue. -/
theorem issueSequence_obedient {ws : List CmdWord} {s : State} (hws : ∀ w ∈ ws, mayIssue s.loaded w = true)
    (hs : s.hostObeys = true) : ∃ t, issueSequence ws s = .next t ∧ t.hostObeys = true ∧
      work t.inputs < moveWork (.sequence ws) + work s.inputs := by
  cases ws with
  | nil => exact ⟨s, rfl, hs, by simp [moveWork]⟩
  | cons w rest =>
    obtain ⟨hw, hrest⟩ := List.forall_mem_cons.1 hws
    obtain ⟨t, ht, hobeys, hin⟩ := issue_obedient hw hs
    obtain ⟨-, -, hl⟩ := issue_keeps_launch ht
    have hlen : moveWork (.sequence (w :: rest)) = rest.length + 1 := by simp [moveWork]
    simp only [issueSequence, ht]
    refine ⟨_, rfl, ?_⟩
    split
    · refine ⟨obeys_pushSequence_iff.2 ⟨by rwa [hl], hobeys⟩, ?_⟩
      rw [work_pushSequence, hin, hlen]
      omega
    · refine ⟨hobeys, ?_⟩
      rw [hin, hlen]
      omega

/-- A move within the host's duties is carried out, keeps them, and leaves less work than before it was taken. -/
theorem takeMove_obedient {m : HostMove} {s : State} (h : obeys s.loaded s.fbLen (m :: s.inputs) = true) :
    ∃ t, takeMove m s = .next t ∧ t.hostObeys = true ∧ work t.inputs < moveWork m + work s.inputs := by
  have hlt := Nat.lt_add_of_pos_left (n := work s.inputs) (moveWork_pos m)
  cases m with
  | load bytes =>
    obtain ⟨hlen, hrest⟩ := obeys_load_iff.1 h
    exact ⟨_, loadMove_next.2 ⟨hlen, rfl⟩, hrest, hlt⟩
  | poke addr bytes =>
    obtain ⟨hl, hw, hrest⟩ := obeys_poke_iff.1 h
    exact ⟨_, pokeMove_next.2 ⟨hl, hw, rfl⟩, hrest, hlt⟩
  | command w =>
    obtain ⟨hw, hrest⟩ := obeys_command_iff.1 h
    obtain ⟨t, ht, hobeys, hin⟩ := issue_obedient hw hrest
    exact ⟨t, ht, hobeys, by rwa [hin]⟩
  | sequence ws =>
    obtain ⟨hws, hrest⟩ := obeys_sequence_iff.1 h
    exact issueSequence_obedient hws hrest
  | reset => exact ⟨_, rfl, h, hlt⟩

/-- A step of an obedient host's launch is carried out, keeps the duties, and takes one off the work, if any is left. -/
theorem step_obedient {s : State} (hs : s.hostObeys = true) :
    ∃ t, step s = .next t ∧ t.hostObeys = true ∧ work t.inputs ≤ work s.inputs - 1 := by
  cases hin : s.inputs with
  | nil => exact ⟨s, step_nil hin, hs, by simp [hin, work]⟩
  | cons m rest =>
    rw [State.hostObeys, hin] at hs
    obtain ⟨t, ht, hobeys, hlt⟩ := takeMove_obedient (s := { s with inputs := rest }) hs
    exact ⟨t, (step_cons hin).trans ht, hobeys, Nat.le_sub_one_of_lt hlt⟩

/-- Settles O56: the step is idle or takes a move within the duties. -/
theorem obedientHostIsNeverStopped : Obligations.ObedientHostIsNeverStopped := by
  intro s hs
  obtain ⟨t, ht, hobeys, -⟩ := step_obedient hs
  exact ⟨t, ht, hobeys⟩

/-- By induction on the steps: each takes one off the work, and no work means no move. -/
theorem run_obedient {n : Nat} {s : State} (hs : s.hostObeys = true) (hn : work s.inputs ≤ n) :
    ∃ t, core.run n s = .next t ∧ t.inputs = [] := by
  induction n generalizing s with
  | zero => exact ⟨s, rfl, work_eq_zero_iff.1 (Nat.le_zero.1 hn)⟩
  | succ n ih =>
    obtain ⟨u, hu, hobeys, hwork⟩ := step_obedient hs
    obtain ⟨t, ht, hin⟩ := ih hobeys (by omega)
    exact ⟨t, (core_run_succ hu n).trans ht, hin⟩

/-- Settles O57: the counted work is enough steps. -/
theorem obedientHostMovesAreCarriedOut : Obligations.ObedientHostMovesAreCarriedOut :=
  fun _ hs => run_obedient hs (Nat.le_refl _)

/-! ### The additions of a command (R153) -/

/-- Settles O27: the pieces have the lengths of their word lists, and are all a command does to `ACC`. -/
theorem additionsAreCounted : Obligations.AdditionsAreCounted := by
  refine ⟨fun _ _ => rfl, fun _ _ => rfl, ?_, ?_, fun s t i h hi => exec_acc_eq_sumWords hi h, ?_⟩
  · intro s base len hw
    rw [pieceOf_adds_inside hw, Memory.windowWords_length]
  · intro s src dst proto hlen plen hw
    rw [pieceOf, lengthTooLarge_false_iff.2 hw]
    rfl
  · intro s i hi
    cases i with
    | add2 | add4 | adds | phdr => cases hi
    | clr | fin | stf | rda | upd2 | upd4 => rfl

/-! ### The causes of the errors (R120, R124 to R127) -/

/-- The one cause of each exception, for a word issued where `FB` has the given length. -/
def CmdError.Cause (fbLen : Nat) (w : CmdWord) : CmdError → Prop
  | .illegalCommand => matchesTable w = false
  | .boundsError => (∃ base len, decode w = .ok (.adds base len) ∧ fbLen < base.toNat + len.toNat) ∨
      ∃ addr, decode w = .ok (.stf addr) ∧ fbLen < addr.toNat + 2
  | .valueTooLarge => ∃ src dst proto hlen plen, decode w = .ok (.phdr src dst proto hlen plen) ∧
      65535 < hlen.toNat + plen.toNat

theorem exec_phdr_next {src dst : Word} {proto : Byte} {hlen : HWord} {plen : Word} {s t : State} :
    exec (.phdr src dst proto hlen plen) s = .next t ↔
      (hlen.toNat + plen.toNat ≤ 65535 ∧ t = (s.accAdd (phdrWords src dst proto hlen plen)).respond 0) ∨
        (65535 < hlen.toNat + plen.toNat ∧ t = s.raise .valueTooLarge) := by
  obtain hw | hw := le_or_gt (hlen.toNat + plen.toNat) 65535
  · simp [exec_phdr_ok hw, hw, hw.not_gt, eq_comm]
  · simp [exec_phdr_tooLarge hw, hw, hw.not_ge, eq_comm]

theorem no_match_of_decode_error {w : CmdWord} {e : DecodeError} (h : decode w = .error e) :
    matchesTable w = false := by
  rw [matchesTable_eq_wellFormed, Bool.eq_false_iff, ne_eq, wellFormed_iff_exists_decode, h]
  simp

/-- A word that answers, and has the cause of an error, answers that error. -/
theorem issue_next_of_cause {e : CmdError} {w : CmdWord} {s t : State} (hc : e.Cause s.fbLen w)
    (h : issue w s = .next t) : t = s.raise e := by
  cases e with
  | illegalCommand =>
    obtain ⟨e, he⟩ := decode_error_of_no_match hc
    rw [issue_error he] at h
    cases h
    rfl
  | boundsError =>
    obtain ⟨base, len, hd, hw⟩ | ⟨addr, hd, hw⟩ := hc
    · rw [issue_ok hd] at h
      obtain ⟨-, ⟨hin, -⟩ | ⟨-, ht⟩⟩ := exec_adds_next.1 h
      · omega
      · exact ht
    · rw [issue_ok hd] at h
      obtain ⟨-, ⟨hin, -⟩ | ⟨-, ht⟩⟩ := exec_stf_next.1 h
      · omega
      · exact ht
  | valueTooLarge =>
    obtain ⟨src, dst, proto, hlen, plen, hd, hw⟩ := hc
    rw [issue_ok hd, exec_phdr_tooLarge hw] at h
    cases h
    rfl

/-- A word that answers an error has its cause. -/
theorem issue_ok_or_cause {w : CmdWord} {s t : State} (h : issue w s = .next t) :
    t.lastOk = true ∨ ∃ e : CmdError, e.Cause s.fbLen w ∧ t = s.raise e := by
  obtain ⟨i, hd, h⟩ | ⟨e, hd, rfl⟩ := issue_next_cases h
  · cases i with
    | clr | add2 | add4 | fin | rda | upd2 | upd4 => cases h; exact .inl rfl
    | adds base len =>
      obtain ⟨-, ⟨-, rfl⟩ | ⟨hw, rfl⟩⟩ := exec_adds_next.1 h
      · exact .inl rfl
      · exact .inr ⟨.boundsError, .inl ⟨base, len, hd, hw⟩, rfl⟩
    | stf addr =>
      obtain ⟨-, ⟨-, rfl⟩ | ⟨hw, rfl⟩⟩ := exec_stf_next.1 h
      · exact .inl rfl
      · exact .inr ⟨.boundsError, .inr ⟨addr, hd, hw⟩, rfl⟩
    | phdr src dst proto hlen plen =>
      obtain ⟨-, rfl⟩ | ⟨hw, rfl⟩ := exec_phdr_next.1 h
      · exact .inl rfl
      · exact .inr ⟨.valueTooLarge, ⟨src, dst, proto, hlen, plen, hd, hw⟩, rfl⟩
  · exact .inr ⟨.illegalCommand, no_match_of_decode_error hd, rfl⟩

theorem issue_error_cause {w : CmdWord} {s t : State} (h : issue w s = .next t) (he : t.lastOk = false) :
    ∃ e : CmdError, e.Cause s.fbLen w ∧ t = s.raise e :=
  (issue_ok_or_cause h).resolve_left (by simp [he])

theorem CmdError.status_ne_ok (e : CmdError) : e.status ≠ .ok := by
  cases e <;> simp [CmdError.status]

theorem CmdError.status_inj {e e' : CmdError} (h : e.status = e'.status) : e = e' := by
  cases e <;> cases e' <;> cases h <;> rfl

/-- The newest response reports an exception exactly for its cause. -/
theorem status_eq_iff_cause {w : CmdWord} {s t : State} {q : Response} (h : issue w s = .next t)
    (hq : t.responses = q :: s.responses) (e : CmdError) : q.status = e.status ↔ e.Cause s.fbLen w := by
  constructor
  · intro hst
    obtain hok | ⟨e', hc, rfl⟩ := issue_ok_or_cause h
    · exact absurd (hst.symm.trans (status_ok_of_lastOk hq hok)) e.status_ne_ok
    · cases hq
      rwa [← CmdError.status_inj hst]
  · intro hc
    cases issue_next_of_cause hc h
    cases hq
    rfl

/-- Settles O39: the three statuses are those of the three exceptions. -/
theorem eachErrorHasItsCause : Obligations.EachErrorHasItsCause := fun _ _ _ _ h hq =>
  ⟨status_eq_iff_cause h hq .illegalCommand, status_eq_iff_cause h hq .boundsError,
    status_eq_iff_cause h hq .valueTooLarge⟩

/-- Settles O38: the cause of an error and the duty on its word speak of `FB_LEN` and the load, of no byte of `FB`. -/
theorem errorsChangeNoState : Obligations.ErrorsChangeNoState := by
  intro w s t h he
  obtain ⟨e, hc, rfl⟩ := issue_error_cause h he
  refine ⟨e.status, e.status_ne_ok, rfl, fun m => ?_⟩
  obtain ⟨u, hu⟩ := issue_answers_iff (s := { s with fb := m }).2 (issue_answers_iff (s := s).1 ⟨_, h⟩)
  rw [hu, issue_next_of_cause (s := { s with fb := m }) hc hu]
  rfl

/-! ### Responses are only added to (R123, R133) -/

/-- A command does not look at the responses before its own. -/
theorem exec_ignores_responses {i : Instr} {s t : State} (h : exec i s = .next t) :
    ∃ q, t.responses = q :: s.responses ∧
      ∀ qs, exec i { s with responses := qs } = .next { t with responses := q :: qs } := by
  cases i with
  | clr | add2 | add4 | fin | rda | upd2 | upd4 => cases h; exact ⟨_, rfl, fun _ => rfl⟩
  | adds base len =>
    obtain ⟨hl, ⟨hw, rfl⟩ | ⟨hw, rfl⟩⟩ := exec_adds_next.1 h
    · exact ⟨_, rfl, fun _ => exec_adds_next.2 ⟨hl, .inl ⟨hw, rfl⟩⟩⟩
    · exact ⟨_, rfl, fun _ => exec_adds_next.2 ⟨hl, .inr ⟨hw, rfl⟩⟩⟩
  | stf addr =>
    obtain ⟨hl, ⟨hw, rfl⟩ | ⟨hw, rfl⟩⟩ := exec_stf_next.1 h
    · exact ⟨_, rfl, fun _ => exec_stf_next.2 ⟨hl, .inl ⟨hw, rfl⟩⟩⟩
    · exact ⟨_, rfl, fun _ => exec_stf_next.2 ⟨hl, .inr ⟨hw, rfl⟩⟩⟩
  | phdr src dst proto hlen plen =>
    obtain ⟨hw, rfl⟩ | ⟨hw, rfl⟩ := exec_phdr_next.1 h
    · exact ⟨_, rfl, fun _ => exec_phdr_ok hw⟩
    · exact ⟨_, rfl, fun _ => exec_phdr_tooLarge hw⟩

theorem issue_ignores_responses {w : CmdWord} {s t : State} (h : issue w s = .next t) :
    ∃ q, t.responses = q :: s.responses ∧
      ∀ qs, issue w { s with responses := qs } = .next { t with responses := q :: qs } := by
  obtain ⟨i, hd, h⟩ | ⟨e, hd, rfl⟩ := issue_next_cases h
  · simp only [issue_ok hd]
    exact exec_ignores_responses h
  · exact ⟨_, rfl, fun _ => issue_error hd⟩

/-- Settles O40: an error leaves the state with one response more, which the next word does not look at. -/
theorem nextCommandIgnoresTheError : Obligations.NextCommandIgnoresTheError := by
  intro w w' s t u h he hu
  obtain ⟨e, -, rfl⟩ := issue_error_cause h he
  obtain ⟨q, hq, hqs⟩ := issue_ignores_responses hu
  exact ⟨q, hq, hqs _⟩

/-- Settles O41: the word answers, once, and an error response has value zero. -/
theorem everyCommandAnswersOnce : Obligations.EveryCommandAnswersOnce := by
  intro w s hw
  obtain ⟨t, ht⟩ := issue_answers_iff.2 hw
  obtain ⟨q, hq, -⟩ := issue_ignores_responses ht
  refine ⟨t, q, ht, hq, ?_⟩
  obtain hok | ⟨e, -, rfl⟩ := issue_ok_or_cause ht
  · simp [Response.wf, status_ok_of_lastOk hq hok]
  · cases hq
    exact Response.wf_zero _

end Sys2Proof.Machine
end

section
/-!
SUPPORT. The family 70_reset_and_hazards.md: `ADDS` and `STF` before the host has loaded a frame (R141).
-/

namespace Sys2Proof.Machine

/-- The window guard refuses exactly before the load: in a loaded launch a window outside `FB` is an error
response and no refusal (R24, R141). -/
theorem withWindow_refused_iff {base len : Nat} {body : State → State} {s : State} :
    withWindow base len body s = .refused .frameNotLoaded ↔ s.loaded = false := by
  cases hl : s.loaded with
  | false => simp [withWindow_unloaded hl]
  | true =>
    obtain ⟨t, ht⟩ := withWindow_of_loaded (base := base) (len := len) (body := body) hl
    simp [ht]

/-- Settles O13: both refusals are the window guard's, and the completion clause is one direction of
`exec_answers_iff`. -/
theorem frameCommandsNeedTheLoad : Obligations.FrameCommandsNeedTheLoad := by
  refine ⟨fun s base len => ?_, fun s addr => ?_, fun _ _ => exec_answers_iff.2⟩
  · rw [exec, execAdds, withWindow_refused_iff]
  · rw [exec, execStf, withWindow_refused_iff]

end Sys2Proof.Machine
end
